-- ==== Sys2Proof/Word.lean ====
section
/-! DEFINITION. The bit-vector types of the ports (spec/10_state.md R19, R20; spec/30_encoding.md R33). -/

namespace Sys2Proof

/-- A one-bit port that takes part in a concatenation: a sign. -/
abbrev Bit := BitVec 1

/-- The binary16 word, `seeeeeffffffffff`, bit 15 the sign (R33). -/
abbrev Word := BitVec 16

/-- The biased exponent field `E`, bits 14 to 10 of a word (R33). -/
abbrev BiasedExp := BitVec 5

/-- The fraction field `F`, bits 9 to 0 of a word (R33). -/
abbrev Fraction := BitVec 10

/-- One part (`ip` or `fp`) of the encoder's operand: IW = FB = 32 bits on this hardware (R8, R38). -/
abbrev Part := BitVec 32

/-- The decoder's magnitude port, in units of 2^-24 (R42). -/
abbrev Magnitude := BitVec 40

end Sys2Proof
end

