-- ==== Sys2Proof/Config.lean ====
section
/-! DEFINITION. What is fixed when the hardware is built (spec/00_scope.md R7, R8; spec/10_state.md R17), and the one free value. -/

namespace Sys2Proof

/-- The two values of the build-time parameter ROUND_MODE (spec/42_encoder_rne_option.md R87). -/
inductive RoundMode where
  /-- Truncation, the source's behaviour. -/
  | trunc
  /-- Round to nearest, ties to even; PRESUMED, log 10. -/
  | rne
  deriving DecidableEq, Repr

/-- FRAC_BUDGET, FB: fraction bits of the operand (R8, decision D2; log 9). -/
def Config.fracBudget : Nat := 32

/-- INT_WIDTH, IW: integer bits of the operand (R8, decision D3; log 9). -/
def Config.intWidth : Nat := 32

/-- ROUND_MODE: TRUNC, fixed on this hardware (R8, R87, decision D4; log 9). -/
def Config.roundMode : RoundMode := .trunc

/-- LATENCY: 0, the combinational build (R8, decision D12); no semantic rule reads it (R123). -/
def Config.latency : Nat := 0

/-- The value on the port `mag` when the category is Infinity or NaN has no specified value (spec/40_decoder.md R59;
spec/93_implementation_defined.md U5): the `n`-th draw of a fresh free value. It has no body, so nothing can be proved of it (log 5). -/
opaque Config.freeMag : Nat → Magnitude

end Sys2Proof
end

