-- ==== Sys2Proof/Syntax.lean ====
section
/-! DEFINITION. The operations of the block, one constructor per row of spec/opcode_table.json, and the form in which the host issues them. -/

namespace Sys2Proof

/-- The classification of a decoded word (spec/30_encoding.md R35, R43). -/
inductive Category where
  | zero
  | subnormal
  | normal
  | infinity
  | nan
  deriving DecidableEq, Repr

/-- One constructor per row of spec/opcode_table.json. -/
inductive Instr where
  /-- DECODE16: the whole operation on any word (spec/40_decoder.md R51). -/
  | decode16 (w : Word)
  /-- DECODE16.ZERO: `s000000000000000` (R53). -/
  | decode16Zero (s : Bit)
  /-- DECODE16.INFINITY: `s111110000000000` (R54). -/
  | decode16Infinity (s : Bit)
  /-- DECODE16.NAN: `s11111ffffffffff`, f not all 0 (R55). -/
  | decode16Nan (s : Bit) (f : Fraction)
  /-- DECODE16.SUBNORMAL: `s00000ffffffffff`, f not all 0 (R56). -/
  | decode16Subnormal (s : Bit) (f : Fraction)
  /-- DECODE16.NORMAL: `seeeeeffffffffff`, e neither all 0 nor all 1 (R57). -/
  | decode16Normal (s : Bit) (e : BiasedExp) (f : Fraction)
  /-- ENCODE16: the sign-magnitude fixed-point operand (spec/41_encoder.md R81; spec/30_encoding.md R38). -/
  | encode16 (s : Bit) (ip fp : Part)
  deriving DecidableEq, Repr

/-- An invocation as the host issues it: the unit it drives and the raw patterns on that unit's input ports
(spec/30_encoding.md R46: the unit driven selects the operation; spec/10_state.md R19, R20).
DESIGN CHOICE (log 1): DEC has two forms because the table names every one of its words twice. -/
inductive Invocation where
  /-- DEC driven with `w`, named by the row DECODE16. -/
  | whole (w : Word)
  /-- DEC driven with `w`, named by the first class row that matches `w` (R36). -/
  | byClass (w : Word)
  /-- ENC driven with the operand `s`, `ip`, `fp`. -/
  | operand (s : Bit) (ip fp : Part)
  deriving DecidableEq, Repr

end Sys2Proof
end

