-- ==== Sys2Proof/WellFormed.lean ====
section
/-! DEFINITION. Which terms of `Instr` stand for a row of the table: the conditions of spec/30_encoding.md R35. -/

namespace Sys2Proof

/-- A class row names only the words of its class: the fraction of a NaN and of a subnormal is not 0, the biased exponent of
a normal is neither 0 nor 31 (R35). Every other field takes every value (R47). -/
def Instr.wellFormed : Instr → Bool
  | .decode16 _ => true
  | .decode16Zero _ => true
  | .decode16Infinity _ => true
  | .decode16Nan _ f => f != 0#10
  | .decode16Subnormal _ f => f != 0#10
  | .decode16Normal _ e _ => e != 0#5 && e != 31#5
  | .encode16 _ _ _ => true

end Sys2Proof
end

