-- ==== Sys2Proof/Decode.lean ====
section
/-! DEFINITION. Fields of a word, the class table, reading an invocation as an instruction, and the encoder of instructions.
(The block's own operations ENCODE16 and DECODE16 are in Machine/; here "decode" and "encode" speak of instructions.) -/

namespace Sys2Proof

/-- Field `S`, bit 15 (spec/30_encoding.md R33). -/
def wordSign (w : Word) : Bit := w.extractLsb' 15 1

/-- Field `E`, bits 14 to 10 (R33). -/
def wordExp (w : Word) : BiasedExp := w.extractLsb' 10 5

/-- Field `F`, bits 9 to 0 (R33). -/
def wordFrac (w : Word) : Fraction := w.extractLsb' 0 10

/-- `word = sign || E[4:0] || F[9:0]` (spec/30_encoding.md R45). -/
def packWord (s : Bit) (e : BiasedExp) (f : Fraction) : Word := s ++ e ++ f

/-- One row of the class table of R36: `w` matches when `w and mask = pattern`. -/
structure ClassRow where
  pattern : Word
  mask : Word
  cls : Category
  deriving DecidableEq, Repr

/-- The table of spec/30_encoding.md R36 in priority order. -/
def classRows : List ClassRow :=
  [⟨0x0000#16, 0x7FFF#16, .zero⟩, ⟨0x7C00#16, 0x7FFF#16, .infinity⟩, ⟨0x7C00#16, 0x7C00#16, .nan⟩,
   ⟨0x0000#16, 0x7C00#16, .subnormal⟩, ⟨0x0000#16, 0x0000#16, .normal⟩]

def ClassRow.accepts (r : ClassRow) (w : Word) : Bool := w &&& r.mask == r.pattern

/-- First match wins (R36). The last row of `classRows` accepts every word, so the answer for the empty table is never used
(`Laws.classRows_cover`). -/
def firstMatch : List ClassRow → Word → Category
  | [], _ => .normal
  | r :: rest, w => if r.accepts w then r.cls else firstMatch rest w

/-- The class of a word by the priority table (R36). -/
def classify (w : Word) : Category := firstMatch classRows w

/-- The class row's instruction, with the fields the row leaves open read from the word. -/
def classInstr (c : Category) (w : Word) : Instr :=
  match c with
  | .zero => .decode16Zero (wordSign w)
  | .infinity => .decode16Infinity (wordSign w)
  | .nan => .decode16Nan (wordSign w) (wordFrac w)
  | .subnormal => .decode16Subnormal (wordSign w) (wordFrac w)
  | .normal => .decode16Normal (wordSign w) (wordExp w) (wordFrac w)

/-- Reading an invocation: total, since no pattern of any port is reserved or illegal (spec/30_encoding.md R47). -/
def decode : Invocation → Instr
  | .whole w => .decode16 w
  | .byClass w => classInstr (classify w) w
  | .operand s ip fp => .encode16 s ip fp

/-- Why a number is no row's pattern. -/
inductive DecodeError where
  /-- No row of the table has this many bits. -/
  | noSuchWidth (nbits : Nat)
  /-- A bit is set above the row's pattern. -/
  | strayBits (bits : Nat)
  deriving DecidableEq, Repr

/-- Bits of ENCODE16's operand pattern: 1 + IW + FB (spec/30_encoding.md R46). -/
def operandBits : Nat := 65

/-- A row's bits, numbered as the table numbers them (bit 0 least significant), read as an invocation. A row of 16 bits is a
word of DEC, read by the class table; the 65 bits of `s || ip || fp`, 72 in whole bytes, drive ENC (R46; log 11). -/
def readTableWord (nbits w : Nat) : Except DecodeError Invocation :=
  if nbits = 16 then
    if w < 2 ^ 16 then .ok (.byClass (BitVec.ofNat 16 w)) else .error (.strayBits w)
  else if nbits = operandBits ∨ nbits = 72 then
    if w < 2 ^ operandBits then
      .ok (.operand (BitVec.ofNat 1 (w >>> 64)) (BitVec.ofNat 32 (w >>> 32)) (BitVec.ofNat 32 w))
    else .error (.strayBits w)
  else .error (.noSuchWidth nbits)

/-- The instruction the decoder reads from a table word; none where it rejects the word. -/
def decodeTableWord (nbits w : Nat) : Option Instr :=
  match readTableWord nbits w with
  | .ok v => some (decode v)
  | .error _ => none

/-- The invocation a well-formed instruction stands for, written from the patterns of spec/opcode_table.json. -/
def encode : Instr → Invocation
  | .decode16 w => .whole w
  | .decode16Zero s => .byClass (packWord s 0#5 0#10)
  | .decode16Infinity s => .byClass (packWord s 31#5 0#10)
  | .decode16Nan s f => .byClass (packWord s 31#5 f)
  | .decode16Subnormal s f => .byClass (packWord s 0#5 f)
  | .decode16Normal s e f => .byClass (packWord s e f)
  | .encode16 s ip fp => .operand s ip fp

/-- The number of bits of an instruction's row, in whole bytes. -/
def tableBits : Instr → Nat
  | .encode16 _ _ _ => 72
  | .decode16 _ | .decode16Zero _ | .decode16Infinity _ | .decode16Nan _ _ | .decode16Subnormal _ _ | .decode16Normal _ _ _ => 16

/-- An invocation's input pattern as one number, bit 0 least significant: `w`, or `s || ip || fp`. -/
def Invocation.pattern : Invocation → Nat
  | .whole w => w.toNat
  | .byClass w => w.toNat
  | .operand s ip fp => (s ++ ip ++ fp).toNat

/-- The bits of an instruction's row as the table numbers them. -/
def tableWord (i : Instr) : Nat := (encode i).pattern

end Sys2Proof
end

