-- ==== Sys2Proof/Machine/State.lean ====
section
/-! DEFINITION. The ports of the two units, the host's side of a run, and the reasons a step can stop. -/

namespace Sys2Proof.Machine

/-- Output ports of ENC (spec/10_state.md R19). -/
structure EncOut where
  /-- The binary16 encoding. -/
  word : Word
  /-- Overflow status, combinational, not sticky (R16). -/
  ovf : Bool
  /-- Underflow status, combinational, not sticky (R16). -/
  unf : Bool
  /-- Internal range error; false whenever there is a next state, since a raised error is a fault (log 7). -/
  rangeErr : Bool
  deriving DecidableEq, Repr

/-- Output ports of DEC (spec/10_state.md R20). -/
structure DecOut where
  sign : Bit
  exp : BiasedExp
  frac : Fraction
  cat : Category
  /-- Magnitude in units of 2^-24; no claim may read it when `cat` is Infinity or NaN (spec/40_decoder.md R59). -/
  mag : Magnitude
  deriving DecidableEq, Repr

/-- All ports of ENC. -/
structure EncPorts where
  s : Bit
  ip : Part
  fp : Part
  out : EncOut
  deriving DecidableEq, Repr

/-- All ports of DEC. -/
structure DecPorts where
  w : Word
  out : DecOut
  deriving DecidableEq, Repr

/-- The outputs of one invocation. -/
inductive Result where
  | encoded (o : EncOut)
  | decoded (o : DecOut)
  deriving DecidableEq, Repr

/-- The block's ports and the host's side of a run. The block itself holds nothing from one invocation to the next (spec/10_state.md
R13); `enc` and `dec` are the ports as the unit's latest invocation left them (log 8). -/
structure State where
  enc : EncPorts
  dec : DecPorts
  /-- Invocations issued and not yet performed, oldest first (spec/70_reset_and_hazards.md R125; log 2). -/
  pending : List Invocation
  /-- Outputs of the invocations performed, oldest first (R125; log 6). -/
  results : List Result
  /-- Index of the next free value of `mag` (log 5). -/
  draws : Nat
  deriving DecidableEq, Repr

/-- Why a step stops with a fault. -/
inductive Fault where
  /-- Raised by ENCODE16's range check when the biased exponent `e`, before it is cut to five bits, is below 0 or above 31
  (spec/41_encoder.md R79; spec/60_exceptions.md R106). Safe: the spec asks for a fault outcome, and R107 says it can't occur. -/
  | rangeError (e : Int)
  deriving DecidableEq, Repr

/-- Why a request has no meaning. -/
inductive Refusal where
  /-- Raised by a refused arm of exec: an instruction without a meaning yet. No arm uses it. Safe. -/
  | notModelled (mnemonic : String)
  /-- Raised at the real level, by no instruction: the host asks for the encoding of an infinity (spec/41_encoder.md R66). Safe. -/
  | encodeOfInfinity
  /-- Raised at the real level, by no instruction: the host asks for the encoding of a NaN (R66). Safe. -/
  | encodeOfNan
  deriving DecidableEq, Repr

/-- Before the first invocation. The spec gives no reset value, there being no state (R23): input ports at 0 (DESIGN CHOICE, log 4)
and outputs at the functions of those inputs, as R118 says of power-up. Nothing is issued and nothing performed. -/
def State.reset : State where
  enc := ⟨0, 0, 0, ⟨0, false, false, false⟩⟩
  dec := ⟨0, ⟨0, 0, 0, .zero, 0⟩⟩
  pending := []
  results := []
  draws := 0

end Sys2Proof.Machine
end

