-- ==== Sys2Proof/Machine/Operands.lean ====
section
/-! DEFINITION. Operand assembly: the primitives of spec/00_scope.md R10, the encoder's magnitude and its normalization, the decoder's
magnitude and category. -/

namespace Sys2Proof.Machine

/-- `bitlen(x)`: 0 for 0, else the position of the highest set bit plus one (R10). -/
def bitlen (x : Nat) : Nat := if x = 0 then 0 else Nat.log2 x + 1

/-- `clz_n(x)`: leading zeros of `x` seen as `n` bits (R10). -/
def clz (n x : Nat) : Nat := n - bitlen x

/-- `x << k` in a width of `n` bits: what is shifted past the top is lost (R10). -/
def shiftLeftIn (n x k : Nat) : Nat := (x <<< k) % 2 ^ n

/-- The slice `x[lo+len-1 : lo]` as a number (R9). -/
def slice (x lo len : Nat) : Nat := (x >>> lo) % 2 ^ len

/-- `X = ip || fp`, the magnitude in units of 2^-FB (spec/30_encoding.md R38). -/
def magnitudeBits (fb ip fp : Nat) : Nat := ip * 2 ^ fb + fp

/-- The encoder's transient decomposition of a nonzero magnitude (spec/10_state.md R18): unbiased exponent and the ten bits after the leading 1. -/
structure Normalized where
  e : Int
  sig10 : Fraction
  deriving DecidableEq, Repr

/-- Normalization in the combined form of spec/41_encoder.md R81 (R70, R71, R73): shift the leading 1 to the top of the
`iw + fb` bits, take the next ten. -/
def normalize (iw fb x : Nat) : Normalized :=
  let z := clz (iw + fb) x
  let t := shiftLeftIn (iw + fb) x z
  { e := (iw : Int) - 1 - z, sig10 := BitVec.ofNat 10 (slice t (iw + fb - 11) 10) }

/-- The fraction field of an underflowing magnitude, `((1 || sig10) >> k)[9:0]` with `k = -14 - e` (R75, closed form). -/
def subnormalFraction (n : Normalized) : Fraction :=
  BitVec.ofNat 10 ((1024 + n.sig10.toNat) >>> (-14 - n.e).toNat)

/-- The category by the tests of spec/40_decoder.md R51, in their order. -/
def categoryOf (e : BiasedExp) (f : Fraction) : Category :=
  if e = 0 ∧ f = 0 then .zero
  else if e = 31 ∧ f = 0 then .infinity
  else if e = 31 then .nan
  else if e = 0 then .subnormal
  else .normal

/-- `mag = zext_40(1 || frac) << (exp - 1)` of a normal (R51, R57). -/
def normalMagnitude (e : BiasedExp) (f : Fraction) : Magnitude :=
  ((1#1 ++ f).setWidth 40) <<< (e.toNat - 1)

/-- `mag = zext_40(frac)` of a subnormal (R51, R56). -/
def subnormalMagnitude (f : Fraction) : Magnitude := f.setWidth 40

/-- Whether the port `mag` has a specified value (R59). -/
def magDefined : Category → Bool
  | .zero => true
  | .subnormal => true
  | .normal => true
  | .infinity => false
  | .nan => false

/-- The number on the pins `cat[2:0]` (spec/30_encoding.md R43). -/
def categoryCode : Category → BitVec 3
  | .zero => 0
  | .subnormal => 1
  | .normal => 2
  | .infinity => 3
  | .nan => 4

/-- The 11-bit significand of a finite word: `0 || F` for a zero or a subnormal, `1 || F` for a normal (spec/40_decoder.md R61). -/
def significand (w : Word) : BitVec 11 :=
  if wordExp w = 0 then 0#1 ++ wordFrac w else 1#1 ++ wordFrac w

/-- The unbiased exponent of a finite word: -14 for a subnormal, `E - 15` for a normal (R61). -/
def unbiasedExp (w : Word) : Int :=
  if wordExp w = 0 then -14 else (wordExp w).toNat - 15

/-- `operand_of(w)` from the decoder's result (spec/43_composition_laws.md): the integer part of `mag` zero-extended, its fractional part
padded on the right. -/
def operandOf (o : DecOut) : Invocation :=
  .operand o.sign ((o.mag.extractLsb' 24 16).setWidth 32) (o.mag.extractLsb' 0 24 ++ 0#8)

/-- What a consumer may read of `mag`: nothing when the category is Infinity or NaN (R59, R112). -/
def readableMag (o : DecOut) : Option Magnitude :=
  if magDefined o.cat then some o.mag else none

end Sys2Proof.Machine
end

