-- ==== Sys2Proof/Machine/Flags.lean ====
section
/-! DEFINITION. The encoder's status outputs (spec/41_encoder.md R80; spec/42_encoder_rne_option.md R90). -/

namespace Sys2Proof.Machine

/-- `ovf` of a nonzero magnitude under TRUNC: the overflow path was taken (R80). -/
def overflowFlag (e : Int) : Bool := decide (e ≥ 16)

/-- `unf` of a nonzero magnitude, in both modes: its exponent before rounding is below -14 (R80, R90). -/
def underflowFlag (e : Int) : Bool := decide (e < -14)

/-- `ovf` under RNE: the result is an infinity (R90). -/
def overflowFlagRne (mag15 : Nat) : Bool := mag15 == 0x7C00

end Sys2Proof.Machine
end

