-- ==== Sys2Proof/Machine/Ops.lean ====
section
/-! DEFINITION. The two functions of the block on port values, the range error, and delivering outputs to the ports. -/

namespace Sys2Proof.Machine

/-- What range classification leaves for packing (spec/10_state.md R18): `E` is an integer, not yet cut to five bits. -/
structure Packed where
  E : Int
  F : Fraction
  ovf : Bool
  unf : Bool
  deriving DecidableEq, Repr

/-- The zero magnitude: biased exponent field 0, fraction 0 (spec/41_encoder.md R72). -/
def packedZero : Packed := ⟨0, 0, false, false⟩

/-- Range adjustment of a normalized magnitude under TRUNC (R74 to R77). -/
def classifyRange (n : Normalized) : Packed :=
  if n.e < -14 then ⟨0, subnormalFraction n, overflowFlag n.e, underflowFlag n.e⟩
  else if n.e ≥ 16 then ⟨31, 0, overflowFlag n.e, underflowFlag n.e⟩
  else ⟨n.e + 15, n.sig10, overflowFlag n.e, underflowFlag n.e⟩

/-- ENCODE16 up to packing under ROUND_MODE = TRUNC, for a magnitude of `x` units of 2^-fb in `iw + fb` bits (R81). -/
def encodeTrunc (iw fb x : Nat) : Packed :=
  if x = 0 then packedZero else classifyRange (normalize iw fb x)

/-- The magnitude in grid steps of 2^sh units, rounded to nearest with ties to even (spec/42_encoder_rne_option.md R88; PRESUMED, log 10). -/
def roundNearestEven (x : Nat) (sh : Int) : Nat :=
  if sh ≤ 0 then x <<< (-sh).toNat
  else
    let k := sh.toNat
    let m0 := x >>> k
    let rem := x % 2 ^ k
    let half := 1 <<< (k - 1)
    if rem > half ∨ (rem = half ∧ m0 % 2 = 1) then m0 + 1 else m0

/-- The 15-bit field `E || F` under RNE of a nonzero magnitude of unbiased exponent `e` (R88; PRESUMED, log 10). -/
def rneField (fb x : Nat) (e : Int) : Nat :=
  if e ≥ 16 then 0x7C00
  else
    let m := roundNearestEven x (max e (-14) - 10 + fb)
    if e ≥ -14 then (e + 15).toNat * 1024 + (m - 1024) else m

/-- ENCODE16 up to packing under ROUND_MODE = RNE (R88 to R90; PRESUMED, log 10). Not this hardware's mode. -/
def encodeRne (iw fb x : Nat) : Packed :=
  if x = 0 then packedZero
  else
    let e := (normalize iw fb x).e
    let mag15 := rneField fb x e
    ⟨(mag15 / 1024 : Nat), BitVec.ofNat 10 mag15, overflowFlagRne mag15, underflowFlag e⟩

/-- ENCODE16 up to packing, by rounding mode (R87). -/
def encodePacked (mode : RoundMode) (iw fb x : Nat) : Packed :=
  match mode with
  | .trunc => encodeTrunc iw fb x
  | .rne => encodeRne iw fb x

/-- The range check and packing (spec/41_encoder.md R79, R78): the outputs, or the offending `E`. -/
def finishEncode (s : Bit) (p : Packed) : Except Int EncOut :=
  if p.E < 0 ∨ p.E > 31 then .error p.E
  else .ok { word := packWord s (BitVec.ofInt 5 p.E) p.F, ovf := p.ovf, unf := p.unf, rangeErr := false }

/-- ENCODE16 as a function of its operand and the build parameters (R81, R63). -/
def encodeWord (mode : RoundMode) (iw fb : Nat) (s : Bit) (ip fp : Nat) : Except Int EncOut :=
  finishEncode s (encodePacked mode iw fb (magnitudeBits fb ip fp))

/-- DECODE16 as a function of its operand (spec/40_decoder.md R51); `free` is what the port `mag` carries where R59 leaves it open. -/
def decodeWord (w : Word) (free : Magnitude) : DecOut :=
  let e := wordExp w
  let f := wordFrac w
  { sign := wordSign w, exp := e, frac := f, cat := categoryOf e f,
    mag := match categoryOf e f with
      | .zero => 0
      | .infinity => free
      | .nan => free
      | .subnormal => subnormalMagnitude f
      | .normal => normalMagnitude e f }

/-- Raising the internal range error: the invocation ends, nothing is recorded and no output is readable (spec/60_exceptions.md R106,
R114: no trap mechanism, so nothing is saved and control goes nowhere; log 7). -/
def raiseRangeError (e : Int) : Host.Outcome State Fault Refusal := .fault (.rangeError e)

/-- The outputs of an ENC invocation appear at ENC's ports and at the end of the run's list; DEC is not touched
(spec/20_memory.md R28, R30). -/
def State.deliverEnc (st : State) (s : Bit) (ip fp : Part) (o : EncOut) : State :=
  { st with enc := ⟨s, ip, fp, o⟩, results := st.results ++ [.encoded o] }

/-- The outputs of a DEC invocation, likewise; a free value of `mag` that was shown is used up (log 5). -/
def State.deliverDec (st : State) (w : Word) (o : DecOut) : State :=
  { st with dec := ⟨w, o⟩, results := st.results ++ [.decoded o],
            draws := if magDefined o.cat then st.draws else st.draws + 1 }

/-- How an ENC invocation ends: with its outputs, or with the range error (spec/60_exceptions.md R106, R110). -/
def State.endEnc (st : State) (s : Bit) (ip fp : Part) (r : Except Int EncOut) : Host.Outcome State Fault Refusal :=
  match r with
  | .ok o => .next (st.deliverEnc s ip fp o)
  | .error e => raiseRangeError e

/-- The next free value of `mag`. -/
def State.freeMag (st : State) : Magnitude := Config.freeMag st.draws

/-- The host issues an invocation (spec/70_reset_and_hazards.md R124); it is performed after those already issued. -/
def State.issue (st : State) (v : Invocation) : State := { st with pending := st.pending ++ [v] }

/-- The next invocation to perform is taken off the list. -/
def State.take (st : State) (rest : List Invocation) : State := { st with pending := rest }

end Sys2Proof.Machine
end

