-- ==== Sys2Proof/Machine/Dec.lean ====
section
/-! DEFINITION. The meanings of DECODE16 and of its five class rows (spec/40_decoder.md). -/

namespace Sys2Proof.Machine

/-- DECODE16 (R51): unpack, classify, compute the magnitude, for any word. -/
def execDecode16 (w : Word) (st : State) : Host.Outcome State Fault Refusal :=
  .next (st.deliverDec w (decodeWord w st.freeMag))

/-- DECODE16.ZERO (R53). -/
def execDecode16Zero (s : Bit) (st : State) : Host.Outcome State Fault Refusal :=
  .next (st.deliverDec (packWord s 0 0) { sign := s, exp := 0, frac := 0, cat := .zero, mag := 0 })

/-- DECODE16.INFINITY (R54); `mag` is the free value of R59. -/
def execDecode16Infinity (s : Bit) (st : State) : Host.Outcome State Fault Refusal :=
  .next (st.deliverDec (packWord s 31 0) { sign := s, exp := 31, frac := 0, cat := .infinity, mag := st.freeMag })

/-- DECODE16.NAN (R55); `mag` is the free value of R59. -/
def execDecode16Nan (s : Bit) (f : Fraction) (st : State) : Host.Outcome State Fault Refusal :=
  .next (st.deliverDec (packWord s 31 f) { sign := s, exp := 31, frac := f, cat := .nan, mag := st.freeMag })

/-- DECODE16.SUBNORMAL (R56). -/
def execDecode16Subnormal (s : Bit) (f : Fraction) (st : State) : Host.Outcome State Fault Refusal :=
  .next (st.deliverDec (packWord s 0 f)
    { sign := s, exp := 0, frac := f, cat := .subnormal, mag := subnormalMagnitude f })

/-- DECODE16.NORMAL (R57). -/
def execDecode16Normal (s : Bit) (e : BiasedExp) (f : Fraction) (st : State) : Host.Outcome State Fault Refusal :=
  .next (st.deliverDec (packWord s e f)
    { sign := s, exp := e, frac := f, cat := .normal, mag := normalMagnitude e f })

end Sys2Proof.Machine
end

