-- ==== Sys2Proof/Machine/Enc.lean ====
section
/-! DEFINITION. The meaning of ENCODE16 (spec/41_encoder.md R81) on this hardware's build. -/

namespace Sys2Proof.Machine

/-- ENCODE16 (R81) at IW = FB = 32, ROUND_MODE = TRUNC (log 9). The range error of R79 ends it where the check fails; R107 says no
operand does. -/
def execEncode16 (s : Bit) (ip fp : Part) (st : State) : Host.Outcome State Fault Refusal :=
  st.endEnc s ip fp (encodeWord Config.roundMode Config.intWidth Config.fracBudget s ip.toNat fp.toNat)

end Sys2Proof.Machine
end

