-- ==== Sys2Proof/Machine/Dispatch.lean ====
section
/-! DEFINITION. One arm per constructor of Instr. -/

namespace Sys2Proof.Machine

/-- The meaning of an instruction in a state. -/
def exec (i : Instr) (s : State) : Host.Outcome State Fault Refusal :=
  match i with
  | .decode16 w => Sys2Proof.Machine.execDecode16 w s
  | .decode16Zero sg => Sys2Proof.Machine.execDecode16Zero sg s
  | .decode16Infinity sg => Sys2Proof.Machine.execDecode16Infinity sg s
  | .decode16Nan sg f => Sys2Proof.Machine.execDecode16Nan sg f s
  | .decode16Subnormal sg f => Sys2Proof.Machine.execDecode16Subnormal sg f s
  | .decode16Normal sg e f => Sys2Proof.Machine.execDecode16Normal sg e f s
  | .encode16 sg ip fp => Sys2Proof.Machine.execEncode16 sg ip fp s

end Sys2Proof.Machine
end

