-- ==== Sys2Proof/Machine/Step.lean ====
section
/-! DEFINITION. One step: the block performs the oldest invocation the host has issued. -/

namespace Sys2Proof.Machine

/-- One invocation, atomically (spec/20_memory.md R28). With nothing issued the block has nothing to do and the ports stay as they
are, the inputs being held (spec/70_reset_and_hazards.md R122, R125; DESIGN CHOICE, log 3). -/
def step (s : State) : Host.Outcome State Fault Refusal :=
  match s.pending with
  | [] => .next s
  | v :: rest => exec (decode v) (s.take rest)

/-- The table word is issued ahead of all that is pending, so that the very next step performs it (log 2). A number that is no
row's pattern is issued as nothing. -/
def State.withFetchWord (s : State) (nbits w : Nat) : State :=
  match readTableWord nbits w with
  | .ok v => { s with pending := v :: s.pending }
  | .error _ => s

end Sys2Proof.Machine
end

