-- ==== Sys2Proof/Machine/EncSteps.lean ====
section
/-! DEFINITION. ENCODE16 by the source's seven steps on digit sequences (spec/41_encoder.md R67 to R78): the second reading of the
operation, beside the combined form of R81 that the machine runs. A sequence's first element is its most significant digit. -/

namespace Sys2Proof.Machine

/-- Repeated base-2 remainder extraction, least significant digit first, at most `fuel` digits (R68). -/
def remainderDigits : Nat → Nat → List Bool
  | 0, _ => []
  | fuel + 1, n => if n = 0 then [] else (n % 2 == 1) :: remainderDigits fuel (n / 2)

/-- `intbits`: the digits of the integer part, no leading zeros, empty for 0 (R68). -/
def intDigits (iw ip : Nat) : List Bool := (remainderDigits iw ip).reverse

/-- `fracbits`: position `j` is `fp[FB-1-j]`, always FB digits (R69). -/
def fracDigits (fb fp : Nat) : List Bool := (List.range fb).map fun j => fp.testBit (fb - 1 - j)

/-- The number a digit sequence writes. -/
def digitsToNat (ds : List Bool) : Nat := ds.foldl (fun a b => 2 * a + b.toNat) 0

/-- `take10`: the first ten digits, padded with zeros on the right (spec/00_scope.md R10; R73). -/
def take10 (ds : List Bool) : List Bool := (ds ++ List.replicate 10 false).take 10

/-- Step 4: the unbiased exponent and `sigseq`, the digits after the leading 1; none when there is no 1 (R70, R71, R72).
The scan's index counts from 0 (spec/90_conflicts.md C2). -/
def leadingOne (intbits fracbits : List Bool) : Option (Int × List Bool) :=
  match intbits with
  | _ :: rest => some ((intbits.length : Int) - 1, rest ++ fracbits)
  | [] =>
    match fracbits.findIdx? (fun b => b) with
    | some i => some (-(i : Int) - 1, fracbits.drop (i + 1))
    | none => none

/-- The loop of step 6 for an underflowing value: `k` shifts right by one place, the first bringing in `front`, every later one
a 0; it stops at once when all digits are zero (R75; spec/90_conflicts.md C3). -/
def shiftLoop : Nat → Bool → List Bool → List Bool
  | 0, _, ds => ds
  | k + 1, front, ds =>
    let shifted := front :: ds.dropLast
    if shifted.all (fun b => !b) then shifted else shiftLoop k false shifted

/-- Steps 4 to 6 (R70 to R77), with the status of R80. -/
def packedBySteps (iw fb ip fp : Nat) : Packed :=
  match leadingOne (intDigits iw ip) (fracDigits fb fp) with
  | none => packedZero
  | some (e, sigseq) =>
    let sig10 := take10 sigseq
    if e < -14 then
      ⟨0, BitVec.ofNat 10 (digitsToNat (shiftLoop (-14 - e).toNat true sig10)), overflowFlag e, underflowFlag e⟩
    else if e ≥ 16 then ⟨31, 0, overflowFlag e, underflowFlag e⟩
    else ⟨e + 15, BitVec.ofNat 10 (digitsToNat sig10), overflowFlag e, underflowFlag e⟩

/-- The seven steps: sign recorded (R67), steps 2 to 6, range check and packing (R78, R79). -/
def encodeBySteps (iw fb : Nat) (s : Bit) (ip fp : Nat) : Except Int EncOut :=
  finishEncode s (packedBySteps iw fb ip fp)

end Sys2Proof.Machine
end

