-- ==== Sys2Proof/Machine/RealLevel.lean ====
section
/-! DEFINITION. The real level (spec/00_scope.md R11): the values words stand for, the presentation of a real at ENC's ports
(spec/30_encoding.md R40, R41), and the contract `encode(value)` (spec/41_encoder.md R65, R66).
The numbers are any ordered field with a floor: the rationals, where everything computes, or the reals (log 12). -/

namespace Sys2Proof.Machine

/-- The decoder's values: the numbers extended with two signed zeros, two infinities and one NaN
(spec/30_encoding.md R42; spec/90_conflicts.md C7). -/
inductive Value (K : Type) where
  /-- A signed zero; the bit is the sign (spec/40_decoder.md R53). -/
  | zero (sign : Bit)
  | finite (v : K)
  | infinity (sign : Bit)
  /-- The one NaN: no sign, no payload, no number (R55). -/
  | nan
  deriving DecidableEq, Repr

/-- An operand of ENC at any widths IW and FB. -/
structure Operand where
  s : Bit
  ip : Nat
  fp : Nat
  deriving DecidableEq, Repr

section
variable {K : Type} [Field K] [LinearOrder K] [FloorRing K]

/-- Step 3's loop on the fractional part: double, and subtract 1 where the double reaches it (spec/30_encoding.md R40;
spec/41_encoder.md R69). -/
def doublingDigits : Nat → K → List Bool
  | 0, _ => []
  | n + 1, f =>
    if 1 ≤ 2 * f then true :: doublingDigits n (2 * f - 1) else false :: doublingDigits n (2 * f)

/-- The presentation of a finite number (R40), with saturation (R41); `anyFp` is the fractional part a saturating host presents,
which the rule leaves to it (log 13). -/
def presentFinite (iw fb anyFp : Nat) (v : K) : Operand :=
  let s : Bit := if v < 0 then 1 else 0
  let ip := ⌊|v|⌋.toNat
  if ip < 2 ^ iw then { s := s, ip := ip, fp := ⌊(|v| - ip) * 2 ^ fb⌋.toNat }
  else { s := s, ip := 2 ^ iw - 1, fp := anyFp }

/-- The presentation of a host's value. A signed zero keeps its sign, as R40 lets a host do (log 12); an infinity and a NaN
have no operand (R66). -/
def present (iw fb anyFp : Nat) : Value K → Except Refusal Operand
  | .zero s => .ok ⟨s, 0, 0⟩
  | .finite v => .ok (presentFinite iw fb anyFp v)
  | .infinity _ => .error .encodeOfInfinity
  | .nan => .error .encodeOfNan

/-- `encode(value)` (R65): ENCODE16 of the presentation. -/
def encodeValue (mode : RoundMode) (iw fb anyFp : Nat) (v : Value K) : Host.Outcome EncOut Fault Refusal :=
  match present iw fb anyFp v with
  | .error r => .refused r
  | .ok o =>
    match encodeWord mode iw fb o.s o.ip o.fp with
    | .ok out => .next out
    | .error e => .fault (.rangeError e)

/-- The host issues the presentation of a value to ENC (spec/70_reset_and_hazards.md R120, R124). -/
def State.issueValue (st : State) (anyFp : Part) (v : Value K) : Host.Outcome State Fault Refusal :=
  match present Config.intWidth Config.fracBudget anyFp.toNat v with
  | .ok o => .next (st.issue (.operand o.s (BitVec.ofNat 32 o.ip) (BitVec.ofNat 32 o.fp)))
  | .error r => .refused r

/-- The value a decoder result denotes (R42): `(-1)^sign * mag * 2^-24` when finite and not zero. -/
def valueOf (o : DecOut) : Value K :=
  match o.cat with
  | .zero => .zero o.sign
  | .infinity => .infinity o.sign
  | .nan => .nan
  | .subnormal => .finite ((if o.sign = 1 then -1 else 1) * (o.mag.toNat : K) / 2 ^ 24)
  | .normal => .finite ((if o.sign = 1 then -1 else 1) * (o.mag.toNat : K) / 2 ^ 24)

end

end Sys2Proof.Machine
end

