-- ==== Sys2Proof/Machine/Registered.lean ====
section
/-! DEFINITION. The registered variant of a unit, LATENCY = n > 0 (spec/70_reset_and_hazards.md R126, R118; PRESUMED, log 16).
This hardware is the LATENCY = 0 build: nothing of this file is in State, and step does not use it. -/

namespace Sys2Proof.Machine

/-- The registers of a unit with outputs of type `α`: LATENCY ranks in all, the output registers the last of them (R118, R8; log 19).
At LATENCY 1 `stages` is empty, and the output registers and `out_valid` are the only storage. -/
structure Registered (α : Type) where
  /-- The ranks before the output registers, newest first, LATENCY - 1 of them: the result under way there, if the rank is valid. -/
  stages : List (Option α)
  outValid : Bool
  /-- The output data registers; none until the first result is delivered (R118). -/
  data : Option α
  deriving DecidableEq, Repr

/-- The inputs sampled at one rising edge: `rst`, and the operand where `in_valid = 1` (R126). -/
structure EdgeInput (ι : Type) where
  rst : Bool
  operand : Option ι
  deriving DecidableEq, Repr

/-- What a consumer samples at one rising edge: `out_valid`, and the data outputs where they have a value (R118). -/
structure EdgeOutput (α : Type) where
  outValid : Bool
  outputs : Option α
  deriving DecidableEq, Repr

/-- Before the first edge: nothing under way, `out_valid = 0`, data never written (R118). -/
def Registered.initial {α : Type} (latency : Nat) : Registered α :=
  { stages := List.replicate (latency - 1) none, outValid := false, data := none }

/-- What the output registers are loaded with at an edge: the content of the rank before them, which at LATENCY 1 is what enters. -/
def Registered.arriving {α : Type} (r : Registered α) (entering : Option α) : Option α :=
  match r.stages.getLast? with
  | some a => a
  | none => entering

/-- One rising edge: `rst` clears the valid pipeline and nothing else; otherwise every rank takes what the one before it holds, the first
the outputs for the operand sampled, if there is one (R126). An operand at an edge with `rst = 1` is dropped (log 16). -/
def Registered.edge {ι α : Type} (f : ι → α) (r : Registered α) (i : EdgeInput ι) : Registered α :=
  if i.rst then { r with stages := r.stages.map fun _ => none, outValid := false }
  else
    let arriving := r.arriving (i.operand.map f)
    { stages := (i.operand.map f :: r.stages).dropLast
      outValid := arriving.isSome
      data := match arriving with
        | some a => some a
        | none => r.data }

/-- Successive edges. -/
def Registered.edges {ι α : Type} (f : ι → α) (r : Registered α) : List (EdgeInput ι) → Registered α
  | [] => r
  | i :: rest => Registered.edges f (r.edge f i) rest

/-- What a reader of the data outputs gets: no value while `out_valid = 0` (R118; spec/93_implementation_defined.md U13). -/
def Registered.read {α : Type} (r : Registered α) : Option α := if r.outValid then r.data else none

/-- The outputs as they stand before an edge, which is what is sampled at it, as the inputs are. -/
def Registered.sample {α : Type} (r : Registered α) : EdgeOutput α := ⟨r.outValid, r.read⟩

/-- What is sampled at each of successive edges. -/
def Registered.samples {ι α : Type} (f : ι → α) (r : Registered α) : List (EdgeInput ι) → List (EdgeOutput α)
  | [] => []
  | i :: rest => r.sample :: Registered.samples f (r.edge f i) rest

/-- The function a registered ENC delays: R81 on this hardware's build parameters. -/
def encFunction (o : Bit × Part × Part) : Except Int EncOut :=
  encodeWord Config.roundMode Config.intWidth Config.fracBudget o.1 o.2.1.toNat o.2.2.toNat

/-- The function a registered DEC delays: R51, with the free value of `mag` sampled beside the word. -/
def decFunction (o : Word × Magnitude) : DecOut := decodeWord o.1 o.2

end Sys2Proof.Machine
end

