-- ==== Sys2Proof/Safety.lean ====
section
/-! DEFINITION. What statements about runs are said in: the ports' agreement, what may be read of a result, a step that goes on. -/

namespace Sys2Proof.Machine

/-- Every output port is the function of the unit's input ports (spec/70_reset_and_hazards.md R118; spec/40_decoder.md R51;
spec/41_encoder.md R81), `mag` being any value where R59 leaves it open. -/
def State.portsAgree (s : State) : Prop :=
  encodeWord Config.roundMode Config.intWidth Config.fracBudget s.enc.s s.enc.ip.toNat s.enc.fp.toNat = .ok s.enc.out ∧
  ∃ free : Magnitude, s.dec.out = decodeWord s.dec.w free

/-- What a claim may read of a result: all of ENC's outputs; of DEC's, `mag` only where it has a specified value (R59). -/
inductive Seen where
  | encoded (o : EncOut)
  | decoded (sign : Bit) (exp : BiasedExp) (frac : Fraction) (cat : Category) (mag : Option Magnitude)
  deriving DecidableEq, Repr

def seen : Result → Seen
  | .encoded o => .encoded o
  | .decoded o => .decoded o.sign o.exp o.frac o.cat (readableMag o)

/-- Steps from `s` until `k` are done; none as soon as one stops. -/
def steps : Nat → State → Option State
  | 0, s => some s
  | k + 1, s =>
    match step s with
    | .next t => steps k t
    | .fault _ => none
    | .refused _ => none

/-- The outcome is a next state of which `p` holds. -/
def nextSatisfies (o : Host.Outcome State Fault Refusal) (p : State → Bool) : Bool :=
  match o with
  | .next t => p t
  | .fault _ => false
  | .refused _ => false

end Sys2Proof.Machine
end

