-- ==== Sys2Proof/Certificates/Slice0/Obligations.lean ====
section
/-! DEFINITION. The statements for the provers. Rule numbers are those of spec/; "log n" is notes/assumptions/n.md. -/

open Sys2Proof Sys2Proof.Machine

-- Words, rows and the reading of invocations

/-- Words written out from the patterns of spec/opcode_table.json, one of each class and one of each operation, read as the
instruction they stand for (R33, R36, R46). The reading of DEC words by the class rows is the model's choice of log 1. -/
def Obligations.SpecWordsDecode : Prop :=
  decodeTableWord 16 0b1000000000000000 = some (.decode16Zero 1) ∧
  decodeTableWord 16 0b0111110000000000 = some (.decode16Infinity 0) ∧
  decodeTableWord 16 0b1111111000000001 = some (.decode16Nan 1 0b1000000001) ∧
  decodeTableWord 16 0b1000000111111110 = some (.decode16Subnormal 1 0b0111111110) ∧
  decodeTableWord 16 0b0011111000000000 = some (.decode16Normal 0 0b01111 0b1000000000) ∧
  decodeTableWord 72 0b10000000000000000000000000000010110000000000000000000000000000011 =
    some (.encode16 1 0b00000000000000000000000000000101 0b10000000000000000000000000000011) ∧
  decode (.whole 0b0011111000000000) = .decode16 0x3E00

/-- No bit of an encoding is dropped: reading an encoded well-formed instruction gives it back, and every invocation is the
encoding of the well-formed instruction it reads as (R46, R47). -/
def Obligations.DecodeEncodeAgree : Prop :=
  (∀ i : Instr, i.wellFormed = true → decode (encode i) = i) ∧
  (∀ v : Invocation, (decode v).wellFormed = true ∧ encode (decode v) = v)

/-- The same on the table's numbering of bits: an instruction's table word reads back as the instruction, DECODE16 as the class row
of its word (log 1); the decoder answers exactly for 16-bit words and for 65-bit operands (log 11), and what it answers is
well-formed and has those bits. -/
def Obligations.TableWordsRoundTrip : Prop :=
  (∀ i : Instr, i.wellFormed = true →
    decodeTableWord (tableBits i) (tableWord i) = some (match i with | .decode16 w => decode (.byClass w) | j => j)) ∧
  (∀ (nbits w : Nat) (i : Instr), decodeTableWord nbits w = some i → i.wellFormed = true ∧ tableWord i = w) ∧
  (∀ nbits w : Nat, (decodeTableWord nbits w).isSome = true ↔
    (nbits = 16 ∧ w < 2 ^ 16) ∨ ((nbits = 65 ∨ nbits = 72) ∧ w < 2 ^ 65))

/-- R33: a word is its three fields, `w = S * 2^15 + E * 2^10 + F`, and packing the fields gives the word. -/
def Obligations.WordIsItsFields : Prop :=
  ∀ w : Word, w.toNat = (wordSign w).toNat * 2 ^ 15 + (wordExp w).toNat * 2 ^ 10 + (wordFrac w).toNat ∧
    packWord (wordSign w) (wordExp w) (wordFrac w) = w ∧
    wordSign w = BitVec.ofBool (w.getLsbD 15) ∧
    (∀ i < 5, (wordExp w).getLsbD i = w.getLsbD (10 + i)) ∧ (∀ i < 10, (wordFrac w).getLsbD i = w.getLsbD i)

/-- R35, R36: the match-and-mask table gives each word the class of the conditions on `E` and `F`, and DECODE16's own tests give
the same category. -/
def Obligations.ClassTableMatchesConditions : Prop :=
  ∀ (w : Word) (free : Magnitude),
    let E := w.toNat / 1024 % 32
    let F := w.toNat % 1024
    (classify w = .zero ↔ E = 0 ∧ F = 0) ∧ (classify w = .subnormal ↔ E = 0 ∧ F ≠ 0) ∧
    (classify w = .normal ↔ 1 ≤ E ∧ E ≤ 30) ∧ (classify w = .infinity ↔ E = 31 ∧ F = 0) ∧
    (classify w = .nan ↔ E = 31 ∧ F ≠ 0) ∧ (decodeWord w free).cat = classify w

/-- R43: the category codes, and that no other code is driven. -/
def Obligations.CategoryCodesOnPins : Prop :=
  (categoryCode .zero).toNat = 0 ∧ (categoryCode .subnormal).toNat = 1 ∧ (categoryCode .normal).toNat = 2 ∧
  (categoryCode .infinity).toNat = 3 ∧ (categoryCode .nan).toNat = 4 ∧
  (∀ s : State, (categoryCode s.dec.out.cat).toNat ≤ 4)

-- The step

/-- A step performs the oldest invocation issued as the instruction it reads as, and takes it off the list; with nothing issued it
changes nothing (log 2, log 3). A table word placed by withFetchWord is what the very next step performs, on the state as it
was; a number that is no row's pattern places nothing. -/
def Obligations.StepPerformsOldestInvocation : Prop :=
  (∀ (s : State) (v : Invocation) (rest : List Invocation), s.pending = v :: rest →
    step s = exec (decode v) { s with pending := rest }) ∧
  (∀ s : State, s.pending = [] → step s = .next s) ∧
  (∀ (s : State) (nbits w : Nat) (i : Instr), decodeTableWord nbits w = some i → step (s.withFetchWord nbits w) = exec i s) ∧
  (∀ (s : State) (nbits w : Nat), decodeTableWord nbits w = none → s.withFetchWord nbits w = s)

/-- R47, R64, R107, R109: every invocation of either unit, in every state, ends in a next state: no fault, no refusal. -/
def Obligations.StepNeverStops : Prop :=
  ∀ s : State, ∃ t : State, step s = .next t

/-- R118 as an invariant: if every output port is the function of the unit's present inputs, it is so after every step. -/
def Obligations.StepKeepsPortsAgreeing : Prop :=
  ∀ s t : State, s.portsAgree → step s = .next t → t.portsAgree

/-- At reset every output is the function of the present inputs (R23, R118), and nothing is issued or performed. That the
inputs are 0 and the lists empty is the model's choice (log 2, log 4, log 6). -/
def Obligations.ResetPortsAgree : Prop :=
  State.reset.portsAgree ∧ State.reset.pending = [] ∧ State.reset.results = [] ∧
  State.reset.enc.s = 0 ∧ State.reset.enc.ip = 0 ∧ State.reset.enc.fp = 0 ∧ State.reset.dec.w = 0

/-- R22, R30: what may be read of the outputs of an invocation is one fixed function of that invocation: whatever the state the
run starts in and whatever else is issued, performing all that is pending adds exactly these outputs, in order. The list of pending
invocations and the list of results are the model's choice (log 2, log 6). -/
def Obligations.OutputsDependOnOwnInputsOnly : Prop :=
  ∃ outputs : Invocation → Seen, ∀ s : State, ∃ t : State, steps s.pending.length s = some t ∧ t.pending = [] ∧
    t.results.map seen = s.results.map seen ++ s.pending.map outputs

-- The decoder

/-- R53. DECODE16.ZERO: signed zero; the words are 0x0000 and 0x8000 only. Frame: ENC, the list of pending invocations and the
draw counter are unchanged, and the outputs are added to the results; these lists, the counter and the ports kept between invocations
are the model's choice (log 2, log 5, log 6, log 8). -/
def Obligations.ZeroWordsDecode : Prop :=
  (∀ (sg : Bit) (s : State), ∃ t : State, exec (.decode16Zero sg) s = .next t ∧
    t.dec.w = (if sg = 0 then 0x0000 else 0x8000) ∧ t.dec.out.sign = sg ∧ t.dec.out.exp = 0 ∧ t.dec.out.frac = 0 ∧
    t.dec.out.cat = .zero ∧ t.dec.out.mag = 0 ∧ (valueOf t.dec.out : Value ℚ) = .zero sg ∧
    t.enc = s.enc ∧ t.pending = s.pending ∧ t.draws = s.draws ∧ t.results = s.results ++ [.decoded t.dec.out]) ∧
  (∀ (w : Word) (free : Magnitude), (decodeWord w free).cat = .zero ↔ w = 0x0000 ∨ w = 0x8000)

/-- R54. DECODE16.INFINITY: signed infinity; the words are 0x7C00 and 0xFC00 only; nothing may be read of `mag` (R59). Frame as in
ZeroWordsDecode, but that one free value is drawn; what the frame speaks of is the model's choice (log 2, log 5, log 6, log 8). -/
def Obligations.InfinityWordsDecode : Prop :=
  (∀ (sg : Bit) (s : State), ∃ t : State, exec (.decode16Infinity sg) s = .next t ∧
    t.dec.w = (if sg = 0 then 0x7C00 else 0xFC00) ∧ t.dec.out.sign = sg ∧ t.dec.out.exp = 31 ∧ t.dec.out.frac = 0 ∧
    t.dec.out.cat = .infinity ∧ readableMag t.dec.out = none ∧ (valueOf t.dec.out : Value ℚ) = .infinity sg ∧
    t.enc = s.enc ∧ t.pending = s.pending ∧ t.draws = s.draws + 1 ∧ t.results = s.results ++ [.decoded t.dec.out]) ∧
  (∀ (w : Word) (free : Magnitude), (decodeWord w free).cat = .infinity ↔ w = 0x7C00 ∨ w = 0xFC00)

/-- R55. DECODE16.NAN: the one NaN, with neither sign nor number in its value, from exactly the words 0x7C01 to 0x7FFF and 0xFC01
to 0xFFFF; the raw fields are the word's bits (R60); nothing may be read of `mag` (R59). Frame as in InfinityWordsDecode;
what the frame speaks of is the model's choice (log 2, log 5, log 6, log 8). -/
def Obligations.NanWordsDecode : Prop :=
  (∀ (sg : Bit) (f : Fraction) (s : State), f ≠ 0 → ∃ t : State, exec (.decode16Nan sg f) s = .next t ∧
    t.dec.w = packWord sg 31 f ∧ t.dec.out.sign = sg ∧ t.dec.out.exp = 31 ∧ t.dec.out.frac = f ∧
    t.dec.out.cat = .nan ∧ readableMag t.dec.out = none ∧ (valueOf t.dec.out : Value ℚ) = .nan ∧
    t.enc = s.enc ∧ t.pending = s.pending ∧ t.draws = s.draws + 1 ∧ t.results = s.results ++ [.decoded t.dec.out]) ∧
  (∀ (w : Word) (free : Magnitude), (decodeWord w free).cat = .nan ↔
    (0x7C01 ≤ w.toNat ∧ w.toNat ≤ 0x7FFF) ∨ (0xFC01 ≤ w.toNat ∧ w.toNat ≤ 0xFFFF))

/-- R56. DECODE16.SUBNORMAL: value `(-1)^sign * (F / 2^10) * 2^-14`, and `mag = F`. Frame as in ZeroWordsDecode;
what the frame speaks of is the model's choice (log 2, log 5, log 6, log 8). -/
def Obligations.SubnormalWordsDecode : Prop :=
  ∀ (sg : Bit) (f : Fraction) (s : State), f ≠ 0 → ∃ t : State, exec (.decode16Subnormal sg f) s = .next t ∧
    t.dec.w = packWord sg 0 f ∧ t.dec.out.sign = sg ∧ t.dec.out.exp = 0 ∧ t.dec.out.frac = f ∧ t.dec.out.cat = .subnormal ∧
    (valueOf t.dec.out : Value ℚ) = .finite ((-1) ^ sg.toNat * ((f.toNat : ℚ) / 2 ^ 10) * 2 ^ (-14 : ℤ)) ∧
    t.dec.out.mag.toNat = f.toNat ∧ 1 ≤ t.dec.out.mag.toNat ∧ t.dec.out.mag.toNat ≤ 1023 ∧
    t.enc = s.enc ∧ t.pending = s.pending ∧ t.draws = s.draws ∧ t.results = s.results ++ [.decoded t.dec.out]

/-- R57. DECODE16.NORMAL: value `(-1)^sign * (1 + F/2^10) * 2^(E-15)`, and `mag = (1024 + F) << (E - 1)` without loss, from 0x400 to
0xFFE0000000. Frame as in ZeroWordsDecode; what the frame speaks of is the model's choice (log 2, log 5, log 6, log 8). -/
def Obligations.NormalWordsDecode : Prop :=
  ∀ (sg : Bit) (e : BiasedExp) (f : Fraction) (s : State), e ≠ 0 → e ≠ 31 →
    ∃ t : State, exec (.decode16Normal sg e f) s = .next t ∧
    t.dec.w = packWord sg e f ∧ t.dec.out.sign = sg ∧ t.dec.out.exp = e ∧ t.dec.out.frac = f ∧ t.dec.out.cat = .normal ∧
    (valueOf t.dec.out : Value ℚ) =
      .finite ((-1) ^ sg.toNat * (1 + (f.toNat : ℚ) / 2 ^ 10) * 2 ^ ((e.toNat : ℤ) - 15)) ∧
    t.dec.out.mag.toNat = (1024 + f.toNat) <<< (e.toNat - 1) ∧
    0x400 ≤ t.dec.out.mag.toNat ∧ t.dec.out.mag.toNat ≤ 0xFFE0000000 ∧
    t.enc = s.enc ∧ t.pending = s.pending ∧ t.draws = s.draws ∧ t.results = s.results ++ [.decoded t.dec.out]

/-- R51, R52. DECODE16 on any word: it goes on, the three fields are driven unchanged for every category, and the five branches give
category and magnitude in numbers, from which the value is read. Frame: ENC and the pending list are unchanged; a draw is used exactly when `mag` is unspecified;
the lists, the counter and the ports kept between invocations are the model's choice (log 2, log 5, log 6, log 8). -/
def Obligations.Decode16OnEveryWord : Prop :=
  ∀ (w : Word) (s : State), ∃ t : State, exec (.decode16 w) s = .next t ∧ t.dec.w = w ∧
    t.dec.out.sign.toNat = w.toNat / 32768 ∧ t.dec.out.exp.toNat = w.toNat / 1024 % 32 ∧
    t.dec.out.frac.toNat = w.toNat % 1024 ∧
    (let E := w.toNat / 1024 % 32
     let F := w.toNat % 1024
     if E = 0 ∧ F = 0 then t.dec.out.cat = .zero ∧ t.dec.out.mag.toNat = 0 ∧ t.draws = s.draws
     else if E = 31 ∧ F = 0 then t.dec.out.cat = .infinity ∧ t.draws = s.draws + 1
     else if E = 31 then t.dec.out.cat = .nan ∧ t.draws = s.draws + 1
     else if E = 0 then t.dec.out.cat = .subnormal ∧ t.dec.out.mag.toNat = F ∧ t.draws = s.draws
     else t.dec.out.cat = .normal ∧ t.dec.out.mag.toNat = (1024 + F) * 2 ^ (E - 1) ∧ t.draws = s.draws) ∧
    (t.dec.out.cat = .zero → (valueOf t.dec.out : Value ℚ) = .zero t.dec.out.sign) ∧
    (t.dec.out.cat = .infinity → (valueOf t.dec.out : Value ℚ) = .infinity t.dec.out.sign) ∧
    (t.dec.out.cat = .nan → (valueOf t.dec.out : Value ℚ) = .nan) ∧
    (t.dec.out.cat = .subnormal ∨ t.dec.out.cat = .normal →
      (valueOf t.dec.out : Value ℚ) = .finite ((-1) ^ t.dec.out.sign.toNat * t.dec.out.mag.toNat * 2 ^ (-24 : ℤ))) ∧
    t.enc = s.enc ∧ t.pending = s.pending ∧ t.results = s.results ++ [.decoded t.dec.out]

/-- R36, R51: on every word the whole operation and the class row that the table gives the word leave the same state (log 1). -/
def Obligations.WholeOperationIsItsClassRow : Prop :=
  ∀ (w : Word) (s : State), exec (.decode16 w) s = exec (decode (.byClass w)) s

/-- R62 (d): the sign bit only negates: two words that differ in bit 15 decode alike but for `sign`, where `mag` may be read. -/
def Obligations.SignBitOnlyNegates : Prop :=
  ∀ (w : Word) (free free' : Magnitude),
    let a := decodeWord w free
    let b := decodeWord (w ^^^ 0x8000#16) free'
    b.sign = ~~~ a.sign ∧ b.exp = a.exp ∧ b.frac = a.frac ∧ b.cat = a.cat ∧ readableMag b = readableMag a

/-- R62 (b): on finite words sign and magnitude determine the word; the magnitude tells the category, the fraction of a subnormal
and the exponent of a normal. -/
def Obligations.FiniteDecodingIsInjective : Prop :=
  (∀ (w w' : Word) (free free' : Magnitude), magDefined (decodeWord w free).cat = true →
    magDefined (decodeWord w' free').cat = true → (decodeWord w free).sign = (decodeWord w' free').sign →
    (decodeWord w free).mag = (decodeWord w' free').mag → w = w') ∧
  (∀ (w : Word) (free : Magnitude), magDefined (decodeWord w free).cat = true →
    let o := decodeWord w free
    (o.cat = .zero ↔ o.mag.toNat = 0) ∧
    (o.cat = .subnormal ↔ 1 ≤ o.mag.toNat ∧ o.mag.toNat ≤ 1023) ∧ (o.cat = .subnormal → o.frac.toNat = o.mag.toNat) ∧
    (o.cat = .normal ↔ 1024 ≤ o.mag.toNat) ∧ (o.cat = .normal → o.exp.toNat - 1 = bitlen o.mag.toNat - 11))

/-- R62 (c): the unsigned order of finite words is the strict order of their magnitudes. -/
def Obligations.FiniteWordsOrderedAsMagnitudes : Prop :=
  ∀ (w w' : Word) (free free' : Magnitude), w.toNat % 32768 ≤ 0x7BFF → w'.toNat % 32768 ≤ 0x7BFF →
    (w.toNat % 32768 < w'.toNat % 32768 ↔ (decodeWord w free).mag.toNat < (decodeWord w' free').mag.toNat)

/-- R61: the decomposed view: `mag = m << (e + 14)` and the value is `(-1)^sign * m * 2^(e-10)`. -/
def Obligations.DecomposedViewOfDecodedValue : Prop :=
  ∀ (w : Word) (free : Magnitude), (decodeWord w free).cat = .subnormal ∨ (decodeWord w free).cat = .normal →
    (decodeWord w free).mag.toNat = (significand w).toNat <<< (unbiasedExp w + 14).toNat ∧
    (valueOf (decodeWord w free) : Value ℚ) =
      .finite ((-1) ^ (wordSign w).toNat * (significand w).toNat * 2 ^ (unbiasedExp w - 10))

-- The encoder

/-- R81, R82. ENCODE16 on any operand: it goes on; with `X = ip || fp` in units of 2^-32 the word is, in numbers, zero for 0, `floor(X / 2^8)`
below 2^18, in the binade `2^k` the exponent `k - 17` with the next ten bits, infinity from 2^48; bit 15 is `s`. Frame: DEC, the pending
list and the draw counter are unchanged, the operand is at the input ports, the outputs are added to the results; the lists,
the counter and the ports kept between invocations are the model's choice (log 2, log 5, log 6, log 8). -/
def Obligations.Encode16OnEveryOperand : Prop :=
  ∀ (sg : Bit) (ip fp : Part) (s : State), ∃ t : State, exec (.encode16 sg ip fp) s = .next t ∧
    t.enc.s = sg ∧ t.enc.ip = ip ∧ t.enc.fp = fp ∧ t.enc.out.rangeErr = false ∧
    (let X := ip.toNat * 2 ^ 32 + fp.toNat
     let h := t.enc.out.word.toNat % 32768
     t.enc.out.word.toNat = sg.toNat * 32768 + h ∧
     (X = 0 → h = 0) ∧ (X < 2 ^ 18 → h = X / 2 ^ 8) ∧
     (∀ k, 18 ≤ k → k ≤ 47 → 2 ^ k ≤ X → X < 2 ^ (k + 1) → h = (k - 17) * 1024 + (X / 2 ^ (k - 10) - 1024)) ∧
     (2 ^ 48 ≤ X → h = 0x7C00)) ∧
    t.dec = s.dec ∧ t.pending = s.pending ∧ t.draws = s.draws ∧ t.results = s.results ++ [.encoded t.enc.out]

/-- R72: the zero operand: the signed zero, both status outputs 0; and every real below 2^-32 in magnitude is presented as it. -/
def Obligations.ZeroOperandEncodes : Prop :=
  (∀ (sg : Bit) (s : State), ∃ t : State, exec (.encode16 sg 0 0) s = .next t ∧
    t.enc.out.word = (if sg = 0 then 0x0000 else 0x8000) ∧ t.enc.out.ovf = false ∧ t.enc.out.unf = false) ∧
  (∀ (v : ℝ) (anyFp : Nat), |v| < 2 ^ (-32 : ℤ) →
    (presentFinite 32 32 anyFp v).ip = 0 ∧ (presentFinite 32 32 anyFp v).fp = 0)

/-- R76: overflow holds exactly when `ip >= 2^16`, and encodes as the signed infinity whatever the other bits are; magnitudes from
65504 to just under 65536 are no overflow and encode to 0x7BFF or 0xFBFF. -/
def Obligations.OverflowEncodesInfinity : Prop :=
  ∀ (sg : Bit) (ip fp : Part) (s : State), ∃ t : State, exec (.encode16 sg ip fp) s = .next t ∧
    ((normalize 32 32 (magnitudeBits 32 ip.toNat fp.toNat)).e ≥ 16 ↔ 2 ^ 16 ≤ ip.toNat) ∧
    (2 ^ 16 ≤ ip.toNat → t.enc.out.word = (if sg = 0 then 0x7C00 else 0xFC00)) ∧
    (65504 ≤ ip.toNat → ip.toNat < 65536 →
      t.enc.out.word = (if sg = 0 then 0x7BFF else 0xFBFF) ∧ t.enc.out.ovf = false)

/-- R74, R77: the exponent alone chooses one of three paths; in the normal window `E = e + 15`, from 1 to 30, and `F` is the truncated
significand. -/
def Obligations.ExponentChoosesPath : Prop :=
  ∀ iw fb x : Nat, 17 ≤ iw → 32 ≤ fb → x ≠ 0 → x < 2 ^ (iw + fb) →
    let n := normalize iw fb x
    let p := encodeTrunc iw fb x
    (-14 ≤ n.e ∧ n.e ≤ 15 → p.E = n.e + 15 ∧ 1 ≤ p.E ∧ p.E ≤ 30 ∧ p.F = n.sig10) ∧
    (n.e ≥ 16 → p.E = 31 ∧ p.F = 0) ∧ (n.e < -14 → p.E = 0)

/-- R75: the underflow path. On the ten digits of any truncated significand the loop leaves after `k` shifts the fraction
`floor((1024 + sig10) / 2^k)`: the first ten leave it nonzero, the eleventh clamps it to zero. A magnitude of exponent `e < -14` is encoded
with `E = 0` and what the loop leaves after `-14 - e` shifts. -/
def Obligations.UnderflowLoopClosedForm : Prop :=
  (∀ (sig10 : Fraction) (k : Nat), 1 ≤ k →
    let F := digitsToNat (shiftLoop k true (fracDigits 10 sig10.toNat))
    F = (1024 + sig10.toNat) / 2 ^ k ∧ (k ≤ 10 → 1 ≤ F) ∧ (11 ≤ k → F = 0)) ∧
  (∀ iw fb x : Nat, 17 ≤ iw → 32 ≤ fb → x ≠ 0 → x < 2 ^ (iw + fb) →
    let n := normalize iw fb x
    n.e < -14 → (encodeTrunc iw fb x).E = 0 ∧
      (encodeTrunc iw fb x).F.toNat = digitsToNat (shiftLoop (-14 - n.e).toNat true (fracDigits 10 n.sig10.toNat)) ∧
      (n.e ≤ -25 ↔ (encodeTrunc iw fb x).F = 0))

/-- R80: the status outputs. `ovf` is `X != 0 and e >= 16`, equivalently `ip >= 2^16`; `unf` is `X != 0 and e < -14`, equivalently `ip = 0`
and `0 < fp < 2^18`; never both; with `ovf` the word is an infinity, with `unf` a subnormal or a zero; a nonzero real below 2^-32 has `unf = 0`. -/
def Obligations.StatusOutputsOfEncoder : Prop :=
  (∀ (sg : Bit) (ip fp : Part) (s : State), ∃ t : State, exec (.encode16 sg ip fp) s = .next t ∧
    (let X := magnitudeBits 32 ip.toNat fp.toNat
     let e := (normalize 32 32 X).e
     (t.enc.out.ovf = true ↔ X ≠ 0 ∧ e ≥ 16) ∧ (t.enc.out.ovf = true ↔ 2 ^ 16 ≤ ip.toNat) ∧
     (t.enc.out.unf = true ↔ X ≠ 0 ∧ e < -14) ∧
     (t.enc.out.unf = true ↔ ip.toNat = 0 ∧ 0 < fp.toNat ∧ fp.toNat < 2 ^ 18)) ∧
    ¬ (t.enc.out.ovf = true ∧ t.enc.out.unf = true) ∧
    (t.enc.out.ovf = true → classify t.enc.out.word = .infinity) ∧
    (t.enc.out.unf = true → classify t.enc.out.word = .subnormal ∨ classify t.enc.out.word = .zero)) ∧
  (∀ (v : ℝ) (anyFp : Nat), v ≠ 0 → |v| < 2 ^ (-32 : ℤ) →
    ∃ o, encodeValue .trunc 32 32 anyFp (.finite v) = .next o ∧ o.unf = false)

/-- R70, R71: normalization. For every legal width the exponent is `bitlen(ip) - 1`, or `-i - 1` with `i` the leading zeros of `fp` when
`ip = 0`, and `2^e <= magnitude < 2^(e+1)`; the digits after the leading 1 are `X` without it, `e + FB` of them, and the first ten,
padded, are `sig10` (R73). -/
def Obligations.NormalizationFindsLeadingOne : Prop :=
  ∀ iw fb ip fp : Nat, 17 ≤ iw → 32 ≤ fb → ip < 2 ^ iw → fp < 2 ^ fb → magnitudeBits fb ip fp ≠ 0 →
    let n := normalize iw fb (magnitudeBits fb ip fp)
    (ip ≠ 0 → n.e = (bitlen ip : ℤ) - 1) ∧ (ip = 0 → n.e = -(clz fb fp : ℤ) - 1) ∧
    (2 : ℚ) ^ n.e ≤ ip + (fp : ℚ) / 2 ^ fb ∧ ip + (fp : ℚ) / 2 ^ fb < 2 ^ (n.e + 1) ∧
    ∃ sigseq, leadingOne (intDigits iw ip) (fracDigits fb fp) = some (n.e, sigseq) ∧
      (sigseq.length : ℤ) = n.e + fb ∧ digitsToNat sigseq + 2 ^ sigseq.length = magnitudeBits fb ip fp ∧
      digitsToNat (take10 sigseq) = n.sig10.toNat

/-- R67 to R81: the source's seven steps on digit sequences and the combined form are one function, at every legal width. -/
def Obligations.SevenStepsAreCombinedForm : Prop :=
  ∀ (iw fb : Nat) (sg : Bit) (ip fp : Nat), 17 ≤ iw → 32 ≤ fb → ip < 2 ^ iw → fp < 2 ^ fb →
    encodeBySteps iw fb sg ip fp = encodeWord .trunc iw fb sg ip fp

/-- R79, R78: the range check raises the error with `E` exactly when `E` is outside 0 to 31, and otherwise the word is
`sign || E || F` in every path and `range_err` is 0; raising it ends the invocation in the fault (R106), with no
output to read, which is the model's choice of log 7; no operand of ENC fails the check (R107). -/
def Obligations.RangeCheckFiresOutsideFiveBits : Prop :=
  (∀ (sg : Bit) (p : Packed), (p.E < 0 ∨ p.E > 31) → finishEncode sg p = .error p.E) ∧
  (∀ (sg : Bit) (p : Packed), 0 ≤ p.E → p.E ≤ 31 → ∃ o, finishEncode sg p = .ok o ∧ o.rangeErr = false ∧
    (o.word.toNat : ℤ) = sg.toNat * 2 ^ 15 + p.E * 2 ^ 10 + p.F.toNat ∧ o.ovf = p.ovf ∧ o.unf = p.unf) ∧
  (∀ (sg : Bit) (ip fp : Part) (s : State) (e : ℤ), s.endEnc sg ip fp (.error e) = .fault (.rangeError e)) ∧
  (∀ (sg : Bit) (ip fp : Part) (s : State), ∃ t : State, exec (.encode16 sg ip fp) s = .next t ∧ t.enc.out.rangeErr = false)

/-- R107: no operand raises the range error, in either rounding mode, at any legal width. The RNE mode is general knowledge (log 10). -/
def Obligations.RangeErrorUnreachable : Prop :=
  ∀ (mode : RoundMode) (iw fb : Nat) (sg : Bit) (ip fp : Nat), 17 ≤ iw → 32 ≤ fb → ip < 2 ^ iw → fp < 2 ^ fb →
    ∃ o, encodeWord mode iw fb sg ip fp = .ok o ∧ o.rangeErr = false

/-- R83 at the port: `word` and `ovf` depend on `fp` through its top 24 bits only. -/
def Obligations.LowFractionBitsDoNotMatter : Prop :=
  ∀ (sg : Bit) (ip fp fp' : Part) (s s' : State), fp.toNat / 2 ^ 8 = fp'.toNat / 2 ^ 8 →
    ∃ t t' : State, exec (.encode16 sg ip fp) s = .next t ∧ exec (.encode16 sg ip fp') s' = .next t' ∧
      t.enc.out.word = t'.enc.out.word ∧ t.enc.out.ovf = t'.enc.out.ovf

/-- R83 at the real level: every bit budget of 24 or more gives every real the same word and the same `ovf`. -/
def Obligations.BitBudgetDoesNotMatter : Prop :=
  ∀ (v : ℝ) (iw fb fb' anyFp anyFp' : Nat), 17 ≤ iw → 24 ≤ fb → 24 ≤ fb' → anyFp < 2 ^ fb → anyFp' < 2 ^ fb' →
    ∃ o o', encodeValue .trunc iw fb anyFp (.finite v) = .next o ∧ encodeValue .trunc iw fb' anyFp' (.finite v) = .next o' ∧
      o.word = o'.word ∧ o.ovf = o'.ovf

/-- R41, R84: every integer width of 17 or more, with saturation, gives every real the same outputs, whatever fraction a saturating
host presents. -/
def Obligations.IntegerWidthDoesNotMatter : Prop :=
  ∀ (v : ℝ) (iw iw' fb anyFp anyFp' : Nat), 17 ≤ iw → 17 ≤ iw' → 32 ≤ fb → anyFp < 2 ^ fb → anyFp' < 2 ^ fb →
    ∃ o, encodeValue .trunc iw fb anyFp (.finite v) = .next o ∧ encodeValue .trunc iw' fb anyFp' (.finite v) = .next o

/-- R86: for a fixed sign a larger magnitude never encodes to a smaller word. -/
def Obligations.EncodingIsMonotone : Prop :=
  ∀ (sg : Bit) (ip fp ip' fp' : Part) (s s' : State),
    ip.toNat * 2 ^ 32 + fp.toNat ≤ ip'.toNat * 2 ^ 32 + fp'.toNat →
    ∃ t t' : State, exec (.encode16 sg ip fp) s = .next t ∧ exec (.encode16 sg ip' fp') s' = .next t' ∧
      t.enc.out.word.toNat % 32768 ≤ t'.enc.out.word.toNat % 32768

/-- R48: the words ENCODE16 produces are exactly those that are not NaN. -/
def Obligations.ProducedWordsAreTheNonNanWords : Prop :=
  ∀ (w : Word) (s : State), classify w ≠ .nan ↔
    ∃ (sg : Bit) (ip fp : Part) (t : State), exec (.encode16 sg ip fp) s = .next t ∧ t.enc.out.word = w

/-- R95: negating the operand adds 0x8000 to the word and changes no status output, zero magnitude included. -/
def Obligations.NegatedOperandFlipsSignBit : Prop :=
  ∀ (ip fp : Part) (s s' : State), ∃ t t' : State,
    exec (.encode16 0 ip fp) s = .next t ∧ exec (.encode16 1 ip fp) s' = .next t' ∧
    t'.enc.out.word.toNat = t.enc.out.word.toNat + 0x8000 ∧ t'.enc.out.ovf = t.enc.out.ovf ∧
    t'.enc.out.unf = t.enc.out.unf ∧ t'.enc.out.rangeErr = t.enc.out.rangeErr

/-- R96, R97: the boundaries, at the port and for reals: a signed zero exactly below 2^-24, a signed infinity exactly from 65536. -/
def Obligations.ZeroAndOverflowBoundaries : Prop :=
  (∀ (sg : Bit) (ip fp : Part) (s : State), ∃ t : State, exec (.encode16 sg ip fp) s = .next t ∧
    (t.enc.out.word.toNat % 32768 = 0 ↔ ip.toNat = 0 ∧ fp.toNat < 2 ^ 8) ∧
    (classify t.enc.out.word = .infinity ↔ 0x10000 ≤ ip.toNat)) ∧
  (∀ (v : ℝ) (anyFp : Nat), anyFp < 2 ^ 32 → ∃ o, encodeValue .trunc 32 32 anyFp (.finite v) = .next o ∧
    (classify o.word = .zero ↔ |v| < 2 ^ (-24 : ℤ)) ∧ (classify o.word = .infinity ↔ 65536 ≤ |v|))

/-- R101: magnitudes from 2^-24 up to 2^-23 encode to the smallest subnormal with `unf`, which decodes to exactly 2^-24. -/
def Obligations.SmallestSubnormalInterval : Prop :=
  ∀ (v : ℝ) (anyFp : Nat) (free : Magnitude), 2 ^ (-24 : ℤ) ≤ |v| → |v| < 2 ^ (-23 : ℤ) →
    ∃ o, encodeValue .trunc 32 32 anyFp (.finite v) = .next o ∧ o.word = (if v < 0 then 0x8001 else 0x0001) ∧ o.unf = true ∧
      (valueOf (decodeWord o.word free) : Value ℝ) = .finite ((if v < 0 then -1 else 1) * 2 ^ (-24 : ℤ))

-- Encoder and decoder together

/-- R94: every finite word comes back from its own decoded value, with `ovf = 0`, `range_err = 0`, and `unf = 1` exactly for subnormals. -/
def Obligations.FiniteWordsRoundTrip : Prop :=
  ∀ (w : Word) (free : Magnitude) (s : State), magDefined (decodeWord w free).cat = true →
    ∃ t : State, exec (decode (operandOf (decodeWord w free))) s = .next t ∧ t.enc.out.word = w ∧ t.enc.out.ovf = false ∧
      t.enc.out.rangeErr = false ∧ (t.enc.out.unf = true ↔ (decodeWord w free).cat = .subnormal)

/-- R93: a real that is exactly a normal binary16 value encodes to the word with that sign, exponent and fraction, which decodes, as
Normal, to that very real. -/
def Obligations.RepresentableRealsRoundTrip : Prop :=
  ∀ (v : ℝ) (F : Nat) (e : ℤ) (anyFp : Nat) (free : Magnitude), F ≤ 1023 → -14 ≤ e → e ≤ 15 →
    |v| = (1 + (F : ℝ) / 2 ^ 10) * 2 ^ e →
    ∃ o, encodeValue .trunc 32 32 anyFp (.finite v) = .next o ∧
      o.word = packWord (if v < 0 then 1 else 0) (BitVec.ofInt 5 (e + 15)) (BitVec.ofNat 10 F) ∧
      (decodeWord o.word free).cat = .normal ∧ (valueOf (decodeWord o.word free) : Value ℝ) = .finite v

/-- R94 at the real level: the value of every finite word, a signed zero as the host holds it (log 12), encodes to that word, in both
rounding modes; the RNE mode is general knowledge (log 10). -/
def Obligations.DecodedValuesEncodeBack : Prop :=
  ∀ (mode : RoundMode) (w : Word) (free : Magnitude) (anyFp : Nat), magDefined (decodeWord w free).cat = true →
    ∃ o, encodeValue mode 32 32 anyFp (valueOf (decodeWord w free) : Value ℝ) = .next o ∧ o.word = w

/-- R102: decoding after encoding truncates: with `a` the operand's magnitude, below 2^16, the decoded magnitude is `floor(a / u) * u` for the
grid step `u` at `a`, and the sign is the operand's. -/
def Obligations.DecodeAfterEncodeTruncates : Prop :=
  ∀ (sg : Bit) (ip fp : Part) (free : Magnitude) (s : State), ip.toNat < 2 ^ 16 →
    ∃ t : State, exec (.encode16 sg ip fp) s = .next t ∧
    (let a : ℚ := ip.toNat + (fp.toNat : ℚ) / 2 ^ 32
     let d := decodeWord t.enc.out.word free
     d.sign = sg ∧ magDefined d.cat = true ∧
     (a < 2 ^ (-14 : ℤ) → (d.mag.toNat : ℚ) / 2 ^ 24 = ⌊a / 2 ^ (-24 : ℤ)⌋ * 2 ^ (-24 : ℤ)) ∧
     (∀ e : ℤ, -14 ≤ e → e ≤ 15 → 2 ^ e ≤ a → a < 2 ^ (e + 1) →
       (d.mag.toNat : ℚ) / 2 ^ 24 = ⌊a / 2 ^ (e - 10)⌋ * 2 ^ (e - 10)) ∧
     (d.mag.toNat : ℚ) / 2 ^ 24 ≤ a)

/-- R82: below 2^16 the word is the largest whose decoded magnitude does not exceed the operand's. -/
def Obligations.EncodesLargestNotExceeding : Prop :=
  ∀ (sg : Bit) (ip fp : Part) (s : State), ip.toNat < 2 ^ 16 → ∃ t : State, exec (.encode16 sg ip fp) s = .next t ∧
    t.enc.out.word.toNat % 32768 ≤ 0x7BFF ∧
    ∀ (h : Nat) (free : Magnitude), h ≤ 0x7BFF →
      ((decodeWord (BitVec.ofNat 16 h) free).mag.toNat * 2 ^ 8 ≤ ip.toNat * 2 ^ 32 + fp.toNat ↔
        h ≤ t.enc.out.word.toNat % 32768)

/-- R98, R99, R100: the source's scenarios at the port. -/
def Obligations.SourceScenarios : Prop :=
  (∀ free : Magnitude,
    (valueOf (decodeWord 0x0000 free) : Value ℚ) = .zero 0 ∧ (decodeWord 0x0000 free).cat = .zero ∧
    (decodeWord 0x0000 free).mag = 0 ∧
    (valueOf (decodeWord 0x8000 free) : Value ℚ) = .zero 1 ∧ (decodeWord 0x8000 free).cat = .zero ∧
    (decodeWord 0x8000 free).mag = 0 ∧
    (valueOf (decodeWord 0x7C00 free) : Value ℚ) = .infinity 0 ∧ (decodeWord 0x7C00 free).cat = .infinity ∧
    (valueOf (decodeWord 0xFC00 free) : Value ℚ) = .infinity 1 ∧ (decodeWord 0xFC00 free).cat = .infinity ∧
    (valueOf (decodeWord 0x7C01 free) : Value ℚ) = .nan ∧ (decodeWord 0x7C01 free).cat = .nan ∧
    (decodeWord 0x7C01 free).sign = 0 ∧
    decodeWord 0x3C00 free = ⟨0, 15, 0, .normal, 0x0001000000⟩ ∧ (valueOf (decodeWord 0x3C00 free) : Value ℚ) = .finite 1 ∧
    decodeWord 0x3E00 free = ⟨0, 15, 0x200, .normal, 0x0001800000⟩ ∧
    (valueOf (decodeWord 0x3E00 free) : Value ℚ) = .finite (3 / 2)) ∧
  encodeWord .trunc 32 32 0 1 0 = .ok ⟨0x3C00, false, false, false⟩ ∧
  encodeWord .trunc 32 32 0 1 0x80000000 = .ok ⟨0x3E00, false, false, false⟩

-- The real level

/-- R40, R69: the doubling loop on the fractional part of a real gives the digits of `floor(f * 2^FB)`, which is what the
presentation puts on `fp`; `ip` is the integer part and `s` the sign. R41: a magnitude whose integer part does not fit is
presented with its sign, `ip` all ones and the host's choice of `fp` (log 13). -/
def Obligations.PresentationIsTheDoublingLoop : Prop :=
  (∀ (f : ℝ) (fb : Nat), 0 ≤ f → f < 1 → doublingDigits fb f = fracDigits fb ⌊f * 2 ^ fb⌋.toNat) ∧
  (∀ (v : ℝ) (iw fb anyFp : Nat), |v| < 2 ^ iw →
    let o := presentFinite iw fb anyFp v
    o.s = (if v < 0 then 1 else 0) ∧ (o.ip : ℤ) = ⌊|v|⌋ ∧ (o.fp : ℤ) = ⌊(|v| - ⌊|v|⌋) * 2 ^ fb⌋ ∧ o.fp < 2 ^ fb) ∧
  (∀ (v : ℝ) (iw fb anyFp : Nat), 2 ^ iw ≤ |v| →
    let o := presentFinite iw fb anyFp v
    o.s = (if v < 0 then 1 else 0) ∧ o.ip = 2 ^ iw - 1 ∧ o.fp = anyFp)

/-- R66: no operand stands for an infinity or a NaN, and asking for its encoding is refused by name; a finite value never is. -/
def Obligations.NonFiniteInputsRefused : Prop :=
  ∀ (mode : RoundMode) (iw fb anyFp : Nat),
    (∀ sg : Bit, encodeValue mode iw fb anyFp (.infinity sg : Value ℝ) = .refused .encodeOfInfinity) ∧
    encodeValue mode iw fb anyFp (.nan : Value ℝ) = .refused .encodeOfNan ∧
    (∀ (s : State) (f : Part) (sg : Bit), s.issueValue f (.infinity sg : Value ℝ) = .refused .encodeOfInfinity) ∧
    (∀ (s : State) (f : Part), s.issueValue f (.nan : Value ℝ) = .refused .encodeOfNan) ∧
    (∀ (v : ℝ) (r : Refusal), encodeValue mode iw fb anyFp (.finite v) ≠ .refused r)

/-- R65: a finite real is encoded by presenting it and applying ENCODE16: issued to an idle block, the next step's outputs are
`encode(v)`, and nothing is left to perform. Issuing to a list that steps perform is the model's choice (log 2). -/
def Obligations.IssuedRealIsEncoded : Prop :=
  ∀ (v : ℝ) (anyFp : Part) (s : State), s.pending = [] →
    ∃ s' t : State, s.issueValue anyFp (.finite v) = .next s' ∧ step s' = .next t ∧ t.pending = [] ∧
      encodeValue .trunc 32 32 anyFp.toNat (.finite v) = .next t.enc.out

-- The other builds the spec describes

/-- R90, R92: the RNE word is the TRUNC word or the next one above it, the same where the magnitude is exactly representable or
overflows; `unf` is the same, `ovf` says that the result is an infinity. RNE is general knowledge, no mode of this hardware (log 10). -/
def Obligations.RneIsTruncOrNextWord : Prop :=
  ∀ (iw fb : Nat) (sg : Bit) (ip fp : Nat), 17 ≤ iw → 32 ≤ fb → ip < 2 ^ iw → fp < 2 ^ fb →
    ∃ o o', encodeWord .trunc iw fb sg ip fp = .ok o ∧ encodeWord .rne iw fb sg ip fp = .ok o' ∧
      (o'.word = o.word ∨ o'.word.toNat = o.word.toNat + 1) ∧ wordSign o'.word = sg ∧ o'.unf = o.unf ∧
      (o'.ovf = true ↔ classify o'.word = .infinity) ∧ (2 ^ 16 ≤ ip → o'.word = o.word) ∧
      (∀ free, ip < 2 ^ 16 → (decodeWord o.word free).mag.toNat * 2 ^ (fb - 24) = magnitudeBits fb ip fp → o'.word = o.word)

/-- R88, R91: a finite RNE word is a nearest binary16 magnitude to the operand's, and where another is equally near its fraction bit 0 is 0.
RNE is general knowledge, no mode of this hardware (log 10). -/
def Obligations.RneIsNearestTiesToEven : Prop :=
  ∀ (sg : Bit) (ip fp : Part) (o : EncOut), encodeWord .rne 32 32 sg ip.toNat fp.toNat = .ok o → o.ovf = false →
    ∀ (h : Nat) (free free' : Magnitude), h ≤ 0x7BFF →
      let X : ℤ := ip.toNat * 2 ^ 32 + fp.toNat
      let near : ℤ := (decodeWord o.word free).mag.toNat * 2 ^ 8 - X
      let other : ℤ := (decodeWord (BitVec.ofNat 16 h) free').mag.toNat * 2 ^ 8 - X
      |near| ≤ |other| ∧ (|near| = |other| → h ≠ o.word.toNat % 32768 → o.word.toNat % 2 = 0)

/-- R89, R90: the carries of RNE at this build's widths: an infinity exactly from 65520, a signed zero exactly up to 2^-25, the tie
included, the smallest normal or more exactly from the midpoint below 2^-14, and never a NaN. RNE is general knowledge, no mode
of this hardware (log 10). -/
def Obligations.RneThresholds : Prop :=
  ∀ (sg : Bit) (ip fp : Part), ∃ o, encodeWord .rne 32 32 sg ip.toNat fp.toNat = .ok o ∧
    (let X := ip.toNat * 2 ^ 32 + fp.toNat
     (classify o.word = .infinity ↔ 65520 * 2 ^ 32 ≤ X) ∧ (o.ovf = true ↔ 65520 * 2 ^ 32 ≤ X) ∧
     (classify o.word = .zero ↔ X ≤ 2 ^ 7) ∧ (0x400 ≤ o.word.toNat % 32768 ↔ 2 ^ 18 - 2 ^ 7 ≤ X) ∧ classify o.word ≠ .nan)

/-- R126, R118, R8: the registered build, by what is sampled at its edges. From every state of its `n` ranks, after a reset edge
too, an operand sampled at edge `i` gives at edge `i + n` exactly `out_valid = 1` with the unit's outputs, and no operand gives 0, unless a
reset edge comes between; a reset edge silences the next `n` edges, changes no data register and keeps the ranks. From the initial state
`out_valid = 1` is sampled at no other edge, and outputs can be read only where it is. At latency 1 the output registers and `out_valid`
are all the storage there is. The interface is the spec's own from common practice (log 16); that the output registers are the last of `n`
ranks is read from R118 and R8 (log 19). -/
def Obligations.RegisteredUnitDeliversAfterLatency : Prop :=
  ∀ (ι α : Type) (f : ι → α) (n : Nat), 0 < n →
    ((Registered.initial n : Registered α).stages.length + 1 = n ∧
      ∀ (r : Registered α) (a : EdgeInput ι), r.stages.length + 1 = n → (r.edge f a).stages.length + 1 = n) ∧
    (∀ (r : Registered α) (ins : List (EdgeInput ι)) (i : Nat) (x : Option ι), r.stages.length + 1 = n →
      ins[i]? = some ⟨false, x⟩ → i + n < ins.length →
      (∀ (j : Nat) (a : EdgeInput ι), i < j → j < i + n → ins[j]? = some a → a.rst = false) →
      (r.samples f ins)[i + n]? = some ⟨x.isSome, x.map f⟩) ∧
    (∀ (r : Registered α) (ins : List (EdgeInput ι)) (i j : Nat) (x : Option ι), r.stages.length + 1 = n →
      ins[i]? = some ⟨true, x⟩ → i < j → j ≤ i + n → j < ins.length → (r.samples f ins)[j]? = some ⟨false, none⟩) ∧
    (∀ (r : Registered α) (x : Option ι), (r.edge f ⟨true, x⟩).data = r.data) ∧
    (∀ (ins : List (EdgeInput ι)) (j : Nat) (o : EdgeOutput α), ((Registered.initial n).samples f ins)[j]? = some o →
      if o.outValid then ∃ x, n ≤ j ∧ ins[j - n]? = some ⟨false, some x⟩ ∧ o.outputs = some (f x)
      else o.outputs = none)
end

