-- ==== Sys2Proof/Laws/Words.lean ====
section
/-! SUPPORT. Fields of a word as numbers, and the class table against the conditions of spec/30_encoding.md R35. -/

namespace Sys2Proof

theorem wordSign_toNat (w : Word) : (wordSign w).toNat = w.toNat / 2 ^ 15 := by
  have := w.isLt
  simp [wordSign, BitVec.extractLsb'_toNat, Nat.shiftRight_eq_div_pow]
  omega

theorem wordExp_toNat (w : Word) : (wordExp w).toNat = w.toNat / 1024 % 32 := by
  simp [wordExp, BitVec.extractLsb'_toNat, Nat.shiftRight_eq_div_pow]

theorem wordFrac_toNat (w : Word) : (wordFrac w).toNat = w.toNat % 1024 := by
  simp [wordFrac, BitVec.extractLsb'_toNat]

/-- R33: `w = S * 2^15 + E * 2^10 + F`. -/
theorem packWord_toNat (s : Bit) (e : BiasedExp) (f : Fraction) :
    (packWord s e f).toNat = s.toNat * 2 ^ 15 + e.toNat * 2 ^ 10 + f.toNat := by
  have hf := f.isLt
  have he := e.isLt
  simp only [packWord, BitVec.toNat_append]
  rw [Nat.shiftLeft_eq, ← Nat.shiftLeft_add_eq_or_of_lt he, Nat.shiftLeft_eq, ← Nat.shiftLeft_eq,
    ← Nat.shiftLeft_add_eq_or_of_lt hf, Nat.shiftLeft_eq]
  ring

@[simp] theorem wordSign_packWord (s : Bit) (e : BiasedExp) (f : Fraction) : wordSign (packWord s e f) = s := by
  have := s.isLt; have := e.isLt; have := f.isLt
  apply BitVec.eq_of_toNat_eq
  rw [wordSign_toNat, packWord_toNat]; omega

@[simp] theorem wordExp_packWord (s : Bit) (e : BiasedExp) (f : Fraction) : wordExp (packWord s e f) = e := by
  have := s.isLt; have := e.isLt; have := f.isLt
  apply BitVec.eq_of_toNat_eq
  rw [wordExp_toNat, packWord_toNat]; omega

@[simp] theorem wordFrac_packWord (s : Bit) (e : BiasedExp) (f : Fraction) : wordFrac (packWord s e f) = f := by
  have := s.isLt; have := e.isLt; have := f.isLt
  apply BitVec.eq_of_toNat_eq
  rw [wordFrac_toNat, packWord_toNat]; omega

/-- The last row of the table accepts every word, so a first match always exists (R36). -/
theorem classRows_cover (w : Word) : ∃ r ∈ classRows, r.accepts w = true :=
  ⟨⟨0x0000#16, 0x0000#16, .normal⟩, by simp [classRows], by simp [ClassRow.accepts]⟩

theorem and_7FFF_toNat (w : Word) : (w &&& 0x7FFF#16).toNat = w.toNat % 2 ^ 15 := by
  rw [BitVec.toNat_and]
  exact Nat.and_two_pow_sub_one_eq_mod w.toNat 15

theorem and_7C00_toNat (w : Word) : (w &&& 0x7C00#16).toNat = w.toNat / 1024 % 32 * 1024 := by
  have h : (w &&& 0x7C00#16) = (wordExp w).setWidth 16 <<< 10 := by
    apply BitVec.eq_of_getLsbD_eq
    intro i hi
    simp only [wordExp, BitVec.getLsbD_and, BitVec.getLsbD_shiftLeft, BitVec.getLsbD_setWidth, BitVec.getLsbD_extractLsb']
    interval_cases i <;> simp
  rw [h, BitVec.toNat_shiftLeft, BitVec.toNat_setWidth, wordExp_toNat, Nat.shiftLeft_eq]
  omega

end Sys2Proof
end

