-- ==== Sys2Proof/Laws/Ops.lean ====
section
/-! SUPPORT. What the primitives and the block's functions on port values do, said once. -/

namespace Sys2Proof.Machine

@[simp] theorem bitlen_zero : bitlen 0 = 0 := rfl

theorem bitlen_pos {x : Nat} (h : x ≠ 0) : 0 < bitlen x := by simp [bitlen, h]

/-- A nonzero number lies in the binade of its bit length. -/
theorem two_pow_bitlen_le {x : Nat} (h : x ≠ 0) : 2 ^ (bitlen x - 1) ≤ x := by
  simpa [bitlen, h] using Nat.log2_self_le h

theorem lt_two_pow_bitlen (x : Nat) : x < 2 ^ bitlen x := by
  by_cases h : x = 0
  · simp [h]
  · simpa [bitlen, h] using Nat.lt_log2_self (n := x)

theorem bitlen_le_iff {x n : Nat} : bitlen x ≤ n ↔ x < 2 ^ n := by
  by_cases h : x = 0
  · simp [h]
  · simp only [bitlen, h, if_false]
    rw [Nat.succ_le_iff, Nat.log2_lt h]

theorem bitlen_eq_of_bounds {x n : Nat} (lo : 2 ^ n ≤ x) (hi : x < 2 ^ (n + 1)) : bitlen x = n + 1 := by
  have h1 : bitlen x ≤ n + 1 := bitlen_le_iff.2 hi
  have h2 : ¬ bitlen x ≤ n := fun h => absurd (bitlen_le_iff.1 h) (by omega)
  omega

theorem magnitudeBits_lt {iw fb ip fp : Nat} (hi : ip < 2 ^ iw) (hf : fp < 2 ^ fb) :
    magnitudeBits fb ip fp < 2 ^ (iw + fb) := by
  unfold magnitudeBits
  calc ip * 2 ^ fb + fp < ip * 2 ^ fb + 2 ^ fb := by omega
    _ = (ip + 1) * 2 ^ fb := by ring
    _ ≤ 2 ^ iw * 2 ^ fb := Nat.mul_le_mul_right _ hi
    _ = 2 ^ (iw + fb) := (pow_add 2 iw fb).symm

/-- The exponent of the combined form is that of the bit length (spec/41_encoder.md R81: `e = bitlen(X) - 1 - FB`). -/
theorem normalize_e {iw fb x : Nat} (hx : x < 2 ^ (iw + fb)) :
    (normalize iw fb x).e = (bitlen x : Int) - 1 - fb := by
  have := bitlen_le_iff.2 hx
  simp only [normalize, clz]
  omega

/-- The leading 1 with the ten bits after it: the magnitude cut to eleven significant bits. -/
theorem normalize_sig10 {iw fb x : Nat} (h0 : x ≠ 0) (hx : x < 2 ^ (iw + fb)) (hw : 11 ≤ iw + fb) :
    1024 + (normalize iw fb x).sig10.toNat = x * 2 ^ (iw + fb - bitlen x) / 2 ^ (iw + fb - 11) := by
  have hb := bitlen_le_iff.2 hx
  have hpos := bitlen_pos h0
  have hlo := two_pow_bitlen_le h0
  have hhi := lt_two_pow_bitlen x
  set W := iw + fb with hW
  set t := x * 2 ^ (W - bitlen x) with ht
  have hWt : t < 2 ^ W := by
    calc t < 2 ^ bitlen x * 2 ^ (W - bitlen x) := Nat.mul_lt_mul_of_pos_right hhi (by positivity)
      _ = 2 ^ W := by rw [← pow_add]; congr 1; omega
  have htW : 2 ^ (W - 1) ≤ t := by
    calc 2 ^ (W - 1) = 2 ^ (bitlen x - 1) * 2 ^ (W - bitlen x) := by rw [← pow_add]; congr 1; omega
      _ ≤ t := Nat.mul_le_mul_right _ hlo
  have hq_hi : t / 2 ^ (W - 11) < 2048 := by
    rw [Nat.div_lt_iff_lt_mul (by positivity)]
    calc t < 2 ^ W := hWt
      _ = 2048 * 2 ^ (W - 11) := by rw [show (2048 : Nat) = 2 ^ 11 from rfl, ← pow_add]; congr 1; omega
  have hq_lo : 1024 ≤ t / 2 ^ (W - 11) := by
    rw [Nat.le_div_iff_mul_le (by positivity)]
    calc 1024 * 2 ^ (W - 11) = 2 ^ (W - 1) := by
          rw [show (1024 : Nat) = 2 ^ 10 from rfl, ← pow_add]; congr 1; omega
      _ ≤ t := htW
  have hsig : (normalize iw fb x).sig10.toNat = t / 2 ^ (W - 11) % 1024 := by
    simp only [normalize, clz, shiftLeftIn, slice, ← hW, BitVec.toNat_ofNat, Nat.shiftLeft_eq, Nat.shiftRight_eq_div_pow,
      ← ht, Nat.mod_eq_of_lt hWt]
    simp
  omega

/-- Underflow, in one truncation (R75, R82): the fraction is the magnitude in steps of 2^-24. -/
theorem encodeTrunc_underflow {iw fb x : Nat} (hiw : 17 ≤ iw) (hfb : 24 ≤ fb) (h0 : x ≠ 0) (h : x < 2 ^ (fb - 14)) :
    encodeTrunc iw fb x = ⟨0, BitVec.ofNat 10 (x / 2 ^ (fb - 24)), false, true⟩ := by
  have hx : x < 2 ^ (iw + fb) := lt_of_lt_of_le h (Nat.pow_le_pow_right (by norm_num) (by omega))
  have he := normalize_e (iw := iw) (fb := fb) hx
  have hs := normalize_sig10 (iw := iw) (fb := fb) h0 hx (by omega)
  have hbl := bitlen_le_iff.2 h
  have hpos := bitlen_pos h0
  have hlt : (normalize iw fb x).e < -14 := by omega
  have hnot : ¬ (normalize iw fb x).e ≥ 16 := by omega
  have hfrac : (1024 + (normalize iw fb x).sig10.toNat) >>> (-14 - (normalize iw fb x).e).toNat = x / 2 ^ (fb - 24) := by
    rw [hs, Nat.shiftRight_eq_div_pow, Nat.div_div_eq_div_mul, ← pow_add]
    have hk : iw + fb - 11 + (-14 - (normalize iw fb x).e).toNat = (iw + fb - bitlen x) + (fb - 24) := by omega
    rw [hk, pow_add, ← Nat.div_div_eq_div_mul, Nat.mul_div_cancel _ (by positivity)]
  simp [encodeTrunc, h0, classifyRange, subnormalFraction, hfrac, hlt, hnot, overflowFlag, underflowFlag]

/-- Overflow (R76): infinity. -/
theorem encodeTrunc_overflow {iw fb x : Nat} (hx : x < 2 ^ (iw + fb)) (h : 2 ^ (fb + 16) ≤ x) :
    encodeTrunc iw fb x = ⟨31, 0, true, false⟩ := by
  have h0 : x ≠ 0 := by have : 0 < 2 ^ (fb + 16) := by positivity
                        omega
  have he := normalize_e (iw := iw) (fb := fb) hx
  have hbl : ¬ bitlen x ≤ fb + 16 := fun hb => absurd (bitlen_le_iff.1 hb) (by omega)
  have hge : (normalize iw fb x).e ≥ 16 := by omega
  have hnot : ¬ (normalize iw fb x).e < -14 := by omega
  simp [encodeTrunc, h0, classifyRange, hge, hnot, overflowFlag, underflowFlag]

/-- The normal window, in one truncation (R77, R82): in the binade `2^k` units the fraction is `x / 2^(k-10)` without the leading 1. -/
theorem encodeTrunc_normal {iw fb x k : Nat} (hiw : 17 ≤ iw) (hfb : 24 ≤ fb) (hk : fb - 14 ≤ k) (hk' : k < fb + 16)
    (lo : 2 ^ k ≤ x) (hi : x < 2 ^ (k + 1)) :
    encodeTrunc iw fb x = ⟨(k : Int) - fb + 15, BitVec.ofNat 10 (x / 2 ^ (k - 10) - 1024), false, false⟩ := by
  have h0 : x ≠ 0 := by have : 0 < 2 ^ k := by positivity
                        omega
  have hx : x < 2 ^ (iw + fb) := lt_of_lt_of_le hi (Nat.pow_le_pow_right (by norm_num) (by omega))
  have hbl := bitlen_eq_of_bounds lo hi
  have he := normalize_e (iw := iw) (fb := fb) hx
  have hs := normalize_sig10 (iw := iw) (fb := fb) h0 hx (by omega)
  rw [hbl] at he hs
  have hnlt : ¬ (normalize iw fb x).e < -14 := by omega
  have hnge : ¬ (normalize iw fb x).e ≥ 16 := by omega
  have hdiv : x * 2 ^ (iw + fb - (k + 1)) / 2 ^ (iw + fb - 11) = x / 2 ^ (k - 10) := by
    have : iw + fb - 11 = (iw + fb - (k + 1)) + (k - 10) := by omega
    rw [this, pow_add, ← Nat.div_div_eq_div_mul, Nat.mul_div_cancel _ (by positivity)]
  have hsig : (normalize iw fb x).sig10 = BitVec.ofNat 10 (x / 2 ^ (k - 10) - 1024) := by
    apply BitVec.eq_of_toNat_eq
    have := (normalize iw fb x).sig10.isLt
    rw [BitVec.toNat_ofNat]
    omega
  simp only [encodeTrunc, h0, classifyRange, hnlt, hnge, if_false, hsig, overflowFlag, underflowFlag, decide_false]
  simp only [he, Packed.mk.injEq, and_true]
  push_cast
  omega

/-- The outputs of a `Packed` that passes the range check. -/
theorem finishEncode_ok (s : Bit) {p : Packed} (lo : 0 ≤ p.E) (hi : p.E ≤ 31) :
    finishEncode s p = .ok ⟨packWord s (BitVec.ofInt 5 p.E) p.F, p.ovf, p.unf, false⟩ := by
  simp [finishEncode, Int.not_lt.2 lo, Int.not_lt.2 hi]

/-- A result always has `range_err = 0`: an error has no result (R106). -/
theorem finishEncode_rangeErr {s : Bit} {p : Packed} {o : EncOut} (h : finishEncode s p = .ok o) : o.rangeErr = false := by
  unfold finishEncode at h
  split at h
  · cases h
  · cases h; rfl

theorem finishEncode_error {s : Bit} {p : Packed} {e : Int} (h : finishEncode s p = .error e) : e = p.E ∧ (e < 0 ∨ e > 31) := by
  unfold finishEncode at h
  split at h
  · cases h; exact ⟨rfl, ‹_›⟩
  · cases h

/-- Every exponent TRUNC leaves for packing fits the five bits. -/
theorem encodeTrunc_E_range (iw fb x : Nat) : 0 ≤ (encodeTrunc iw fb x).E ∧ (encodeTrunc iw fb x).E ≤ 31 := by
  unfold encodeTrunc classifyRange packedZero
  split
  · simp
  · split
    · simp
    · split
      · simp
      · simp only; omega

/-- Rounding to nearest is truncation to the grid, or one step above it (R88, R92). -/
theorem roundNearestEven_cases (x : Nat) {sh : Int} (h : 0 < sh) :
    roundNearestEven x sh = x / 2 ^ sh.toNat ∨ roundNearestEven x sh = x / 2 ^ sh.toNat + 1 := by
  simp only [roundNearestEven, Int.not_le.2 h, if_false, Nat.shiftRight_eq_div_pow]
  split <;> simp

/-- What is dropped decides: at a magnitude already on the grid nothing is added. -/
theorem roundNearestEven_exact (x : Nat) {sh : Int} (h : 0 < sh) (hx : x % 2 ^ sh.toNat = 0) :
    roundNearestEven x sh = x / 2 ^ sh.toNat := by
  have : 0 < 2 ^ (sh.toNat - 1) := by positivity
  simp [roundNearestEven, Int.not_le.2 h, Nat.shiftRight_eq_div_pow, hx, Nat.shiftLeft_eq]
  intro h0
  omega

theorem subnormalMagnitude_toNat (f : Fraction) : (subnormalMagnitude f).toNat = f.toNat := by
  have := f.isLt
  rw [subnormalMagnitude, BitVec.toNat_setWidth]
  omega

/-- R57: `mag = (1024 + F) << (E - 1)`, without loss in 40 bits. -/
theorem normalMagnitude_toNat {e : BiasedExp} (f : Fraction) (he : e.toNat ≤ 30) :
    (normalMagnitude e f).toNat = (1024 + f.toNat) * 2 ^ (e.toNat - 1) := by
  have hf := f.isLt
  have h1 : (1#1 ++ f).toNat = 1024 + f.toNat := by
    rw [BitVec.toNat_append, ← Nat.shiftLeft_add_eq_or_of_lt hf]; rfl
  have hlt : (1024 + f.toNat) * 2 ^ (e.toNat - 1) < 2 ^ 40 := by
    calc (1024 + f.toNat) * 2 ^ (e.toNat - 1) < 2 ^ 11 * 2 ^ (e.toNat - 1) :=
          Nat.mul_lt_mul_of_pos_right (by omega) (by positivity)
      _ = 2 ^ (11 + (e.toNat - 1)) := by rw [← pow_add]
      _ ≤ 2 ^ 40 := Nat.pow_le_pow_right (by norm_num) (by omega)
  rw [normalMagnitude, BitVec.toNat_shiftLeft, BitVec.toNat_setWidth, h1, Nat.shiftLeft_eq,
    Nat.mod_eq_of_lt (show 1024 + f.toNat < 2 ^ 40 by omega), Nat.mod_eq_of_lt hlt]

@[simp] theorem decodeWord_sign (w : Word) (free : Magnitude) : (decodeWord w free).sign = wordSign w := rfl
@[simp] theorem decodeWord_exp (w : Word) (free : Magnitude) : (decodeWord w free).exp = wordExp w := rfl
@[simp] theorem decodeWord_frac (w : Word) (free : Magnitude) : (decodeWord w free).frac = wordFrac w := rfl
@[simp] theorem decodeWord_cat (w : Word) (free : Magnitude) :
    (decodeWord w free).cat = categoryOf (wordExp w) (wordFrac w) := rfl

/-- The build's parameters as numbers. -/
theorem encodeWord_build (s : Bit) (ip fp : Nat) :
    encodeWord Config.roundMode Config.intWidth Config.fracBudget s ip fp =
      finishEncode s (encodeTrunc 32 32 (ip * 2 ^ 32 + fp)) := rfl

/-- Where `mag` has a specified value, the free value plays no part in it (R59). -/
theorem decodeWord_mag_free {w : Word} {free : Magnitude} (h : magDefined (decodeWord w free).cat = true) (free' : Magnitude) :
    (decodeWord w free).mag = (decodeWord w free').mag := by
  rw [decodeWord_cat] at h
  simp only [decodeWord]
  cases hc : categoryOf (wordExp w) (wordFrac w) <;> simp_all [magDefined]

end Sys2Proof.Machine
end

