-- ==== Sys2Proof/Laws/EncSteps.lean ====
section
/-! SUPPORT. Digit sequences as numbers, for the seven steps of ENCODE16 (spec/41_encoder.md R68 to R75). -/

namespace Sys2Proof.Machine

theorem digitsToNat_concat (ds : List Bool) (b : Bool) : digitsToNat (ds ++ [b]) = 2 * digitsToNat ds + b.toNat := by
  simp [digitsToNat]

theorem digitsToNat_append (ds es : List Bool) :
    digitsToNat (ds ++ es) = digitsToNat ds * 2 ^ es.length + digitsToNat es := by
  induction es using List.reverseRecOn with
  | nil => simp [digitsToNat]
  | append_singleton es b ih =>
    rw [← List.append_assoc, digitsToNat_concat, ih, digitsToNat_concat, List.length_append, List.length_singleton, pow_succ]
    ring

theorem digitsToNat_cons (b : Bool) (ds : List Bool) : digitsToNat (b :: ds) = b.toNat * 2 ^ ds.length + digitsToNat ds := by
  rw [← List.singleton_append, digitsToNat_append]
  simp [digitsToNat]

theorem digitsToNat_lt (ds : List Bool) : digitsToNat ds < 2 ^ ds.length := by
  induction ds with
  | nil => simp [digitsToNat]
  | cons b ds ih =>
    rw [digitsToNat_cons, List.length_cons, pow_succ]
    cases b
    · simp; omega
    · simp; omega

@[simp] theorem fracDigits_length (fb fp : Nat) : (fracDigits fb fp).length = fb := by simp [fracDigits]

@[simp] theorem take10_length (ds : List Bool) : (take10 ds).length = 10 := by simp [take10]

theorem fracDigits_succ (fb fp : Nat) : fracDigits (fb + 1) fp = fp.testBit fb :: fracDigits fb fp := by
  simp only [fracDigits, List.range_succ_eq_map, List.map_cons, List.map_map, List.cons.injEq]
  refine ⟨by simp, List.map_congr_left fun j _ => ?_⟩
  simp only [Function.comp]
  congr 1
  omega

/-- `fracbits` writes the number `fp` in FB digits (R69). -/
theorem digitsToNat_fracDigits (fb fp : Nat) : digitsToNat (fracDigits fb fp) = fp % 2 ^ fb := by
  induction fb with
  | zero => simp [fracDigits, digitsToNat, Nat.mod_one]
  | succ n ih =>
    rw [fracDigits_succ, digitsToNat_cons, ih, fracDigits_length, Nat.mod_pow_succ, Nat.testBit_eq_decide_div_mod_eq]
    rcases Nat.mod_two_eq_zero_or_one (fp / 2 ^ n) with h | h <;> simp [h, add_comm]

theorem digitsToNat_remainderDigits (fuel n : Nat) (h : n < 2 ^ fuel) :
    digitsToNat (remainderDigits fuel n).reverse = n := by
  induction fuel generalizing n with
  | zero => simp at h; simp [remainderDigits, digitsToNat, h]
  | succ fuel ih =>
    unfold remainderDigits
    split
    · simp [digitsToNat, *]
    · rw [List.reverse_cons, digitsToNat_concat, ih (n / 2) (by rw [pow_succ] at h; omega)]
      rcases Nat.mod_two_eq_zero_or_one n with h2 | h2
      · simp [h2]; omega
      · simp [h2]; omega

/-- `intbits` writes the number `ip` (R68). -/
theorem digitsToNat_intDigits {iw ip : Nat} (h : ip < 2 ^ iw) : digitsToNat (intDigits iw ip) = ip :=
  digitsToNat_remainderDigits iw ip h

/-- One shift of the underflow loop halves the number and brings in the front digit (R75). -/
theorem digitsToNat_shift (front : Bool) {ds : List Bool} (h : ds ≠ []) :
    digitsToNat (front :: ds.dropLast) = front.toNat * 2 ^ (ds.length - 1) + digitsToNat ds / 2 := by
  obtain ⟨es, b, rfl⟩ := (List.eq_nil_or_concat ds).resolve_left h
  rw [List.concat_eq_append, List.dropLast_concat, digitsToNat_cons, digitsToNat_concat]
  cases b
  · simp
  · simp; omega

theorem shiftLoop_length (k : Nat) (front : Bool) {ds : List Bool} (h : ds ≠ []) : (shiftLoop k front ds).length = ds.length := by
  induction k generalizing front ds with
  | zero => rfl
  | succ k ih =>
    have hl : (front :: ds.dropLast).length = ds.length := by
      have := List.length_pos_iff.2 h
      simp only [List.length_cons, List.length_dropLast]
      omega
    simp only [shiftLoop]
    split
    · exact hl
    · rw [ih false (by simp), hl]

end Sys2Proof.Machine
end

