-- ==== Sys2Proof/Laws/State.lean ====
section
/-! SUPPORT. One lemma per field for each update of State. -/

namespace Sys2Proof.Machine.State

variable (st : State) (s : Bit) (ip fp : Part) (w : Word) (oe : EncOut) (od : DecOut) (v : Invocation) (rest : List Invocation)

@[simp] theorem deliverEnc_enc : (st.deliverEnc s ip fp oe).enc = ⟨s, ip, fp, oe⟩ := rfl
@[simp] theorem deliverEnc_dec : (st.deliverEnc s ip fp oe).dec = st.dec := rfl
@[simp] theorem deliverEnc_pending : (st.deliverEnc s ip fp oe).pending = st.pending := rfl
@[simp] theorem deliverEnc_results : (st.deliverEnc s ip fp oe).results = st.results ++ [.encoded oe] := rfl
@[simp] theorem deliverEnc_draws : (st.deliverEnc s ip fp oe).draws = st.draws := rfl

@[simp] theorem deliverDec_enc : (st.deliverDec w od).enc = st.enc := rfl
@[simp] theorem deliverDec_dec : (st.deliverDec w od).dec = ⟨w, od⟩ := rfl
@[simp] theorem deliverDec_pending : (st.deliverDec w od).pending = st.pending := rfl
@[simp] theorem deliverDec_results : (st.deliverDec w od).results = st.results ++ [.decoded od] := rfl
@[simp] theorem deliverDec_draws :
    (st.deliverDec w od).draws = if magDefined od.cat then st.draws else st.draws + 1 := rfl

@[simp] theorem issue_enc : (st.issue v).enc = st.enc := rfl
@[simp] theorem issue_dec : (st.issue v).dec = st.dec := rfl
@[simp] theorem issue_pending : (st.issue v).pending = st.pending ++ [v] := rfl
@[simp] theorem issue_results : (st.issue v).results = st.results := rfl
@[simp] theorem issue_draws : (st.issue v).draws = st.draws := rfl

@[simp] theorem take_enc : (st.take rest).enc = st.enc := rfl
@[simp] theorem take_dec : (st.take rest).dec = st.dec := rfl
@[simp] theorem take_pending : (st.take rest).pending = rest := rfl
@[simp] theorem take_results : (st.take rest).results = st.results := rfl
@[simp] theorem take_draws : (st.take rest).draws = st.draws := rfl

end Sys2Proof.Machine.State
end

