-- ==== Sys2Proof/Laws/Exec.lean ====
section
/-! SUPPORT. What an instruction and a step can do, said once: provers cite these instead of unfolding exec and step. -/

namespace Sys2Proof.Machine

/-- An ENC invocation that goes on has outputs, and delivers them. -/
theorem endEnc_next {st t : State} {s : Bit} {ip fp : Part} {r : Except Int EncOut} (h : st.endEnc s ip fp r = .next t) :
    ∃ o, r = .ok o ∧ t = st.deliverEnc s ip fp o := by
  cases r with
  | ok o => cases h; exact ⟨o, rfl, rfl⟩
  | error e => cases h

/-- An instruction that answers a next state delivers outputs at one unit's ports, and does nothing else. -/
theorem exec_next_cases {i : Instr} {s t : State} (h : exec i s = .next t) :
    (∃ sg ip fp o, i = .encode16 sg ip fp ∧
      encodeWord Config.roundMode Config.intWidth Config.fracBudget sg ip.toNat fp.toNat = .ok o ∧
      t = s.deliverEnc sg ip fp o) ∨
    (∃ w o, t = s.deliverDec w o ∧ ∀ sg ip fp, i ≠ .encode16 sg ip fp) := by
  cases i with
  | encode16 sg ip fp =>
    left
    obtain ⟨o, ho, ht⟩ := endEnc_next h
    exact ⟨sg, ip, fp, o, rfl, ho, ht⟩
  | decode16 w => right; cases h; exact ⟨_, _, rfl, by simp⟩
  | decode16Zero sg => right; cases h; exact ⟨_, _, rfl, by simp⟩
  | decode16Infinity sg => right; cases h; exact ⟨_, _, rfl, by simp⟩
  | decode16Nan sg f => right; cases h; exact ⟨_, _, rfl, by simp⟩
  | decode16Subnormal sg f => right; cases h; exact ⟨_, _, rfl, by simp⟩
  | decode16Normal sg e f => right; cases h; exact ⟨_, _, rfl, by simp⟩

/-- ENCODE16 with its function's value in hand. -/
theorem execEncode16_of_ok {s : Bit} {ip fp : Part} {o : EncOut} (st : State)
    (h : encodeWord Config.roundMode Config.intWidth Config.fracBudget s ip.toNat fp.toNat = .ok o) :
    execEncode16 s ip fp st = .next (st.deliverEnc s ip fp o) := by
  rw [execEncode16, h]; rfl

@[simp] theorem step_nil {s : State} (h : s.pending = []) : step s = .next s := by simp [step, h]

/-- A step never invents an invocation: what is pending afterwards is pending before, less at most the oldest. -/
theorem step_pending {s t : State} (h : step s = .next t) : t.pending = s.pending.tail := by
  cases hp : s.pending with
  | nil => rw [step_nil hp] at h; cases h; simp [hp]
  | cons v rest =>
    simp only [step, hp] at h
    obtain ⟨sg, ip, fp, o, -, -, rfl⟩ | ⟨w, o, rfl, -⟩ := exec_next_cases h <;> simp

/-- An ENC invocation leaves DEC as it is, and no invocation is touched. -/
theorem exec_encode16_frame {sg : Bit} {ip fp : Part} {s t : State} (h : exec (.encode16 sg ip fp) s = .next t) :
    t.dec = s.dec ∧ t.pending = s.pending ∧ t.draws = s.draws := by
  obtain ⟨sg', ip', fp', o, -, -, rfl⟩ | ⟨w, o, -, hne⟩ := exec_next_cases h
  · simp
  · exact absurd rfl (hne sg ip fp)

theorem execDecode16_dec (w : Word) (st : State) :
    execDecode16 w st = .next (st.deliverDec w (decodeWord w st.freeMag)) := rfl

end Sys2Proof.Machine
end

