-- ==== Sys2Proof/Laws/PerInstr.lean ====
section
/-! SUPPORT. Statements about every instruction as syntax: the family RowPattern. -/

namespace Sys2Proof.Laws.RowPattern

/-- The fixed bits of an instruction's row in spec/opcode_table.json, as mask and value; the rows DECODE16 and ENCODE16 fix none. -/
def rowMask : Instr → Nat
  | .decode16 _ => 0
  | .decode16Zero _ => 0x7FFF
  | .decode16Infinity _ => 0x7FFF
  | .decode16Nan _ _ => 0x7C00
  | .decode16Subnormal _ _ => 0x7C00
  | .decode16Normal _ _ _ => 0
  | .encode16 _ _ _ => 0

def rowValue : Instr → Nat
  | .decode16 _ => 0
  | .decode16Zero _ => 0
  | .decode16Infinity _ => 0x7C00
  | .decode16Nan _ _ => 0x7C00
  | .decode16Subnormal _ _ => 0
  | .decode16Normal _ _ _ => 0
  | .encode16 _ _ _ => 0

/-- The width of an instruction's row in bits. -/
def rowWidth : Instr → Nat
  | .decode16 _ => 16
  | .decode16Zero _ => 16
  | .decode16Infinity _ => 16
  | .decode16Nan _ _ => 16
  | .decode16Subnormal _ _ => 16
  | .decode16Normal _ _ _ => 16
  | .encode16 _ _ _ => 65

/-- The word an instruction is encoded as shows the fixed bits of its own row and sets no bit above the row. -/
def Statement (i : Instr) : Prop :=
  tableWord i &&& rowMask i = rowValue i ∧ tableWord i < 2 ^ rowWidth i

theorem decode16 (w : Word) : Statement (.decode16 w) :=
  ⟨by simp [rowMask, rowValue], w.isLt⟩

theorem decode16Zero (s : Bit) : Statement (.decode16Zero s) := by
  revert s; unfold Statement; decide

theorem decode16Infinity (s : Bit) : Statement (.decode16Infinity s) := by
  revert s; unfold Statement; decide

theorem decode16Nan (s : Bit) (f : Fraction) : Statement (.decode16Nan s f) := by
  refine ⟨?_, (packWord s 31 f).isLt⟩
  have h := and_7C00_toNat (packWord s 31#5 f)
  rw [BitVec.toNat_and, ← wordExp_toNat, wordExp_packWord] at h
  exact h

theorem decode16Subnormal (s : Bit) (f : Fraction) : Statement (.decode16Subnormal s f) := by
  refine ⟨?_, (packWord s 0 f).isLt⟩
  have h := and_7C00_toNat (packWord s 0#5 f)
  rw [BitVec.toNat_and, ← wordExp_toNat, wordExp_packWord] at h
  exact h

theorem decode16Normal (s : Bit) (e : BiasedExp) (f : Fraction) : Statement (.decode16Normal s e f) :=
  ⟨by simp [rowMask, rowValue], (packWord s e f).isLt⟩

theorem encode16 (s : Bit) (ip fp : Part) : Statement (.encode16 s ip fp) :=
  ⟨by simp [rowMask, rowValue], (s ++ ip ++ fp).isLt⟩

end Sys2Proof.Laws.RowPattern
end

