-- ==== Sys2Proof/Laws/Registered.lean ====
section
/-! SUPPORT. What the edges of the registered variant do to its registers, said once (spec/70_reset_and_hazards.md R126). -/

namespace Sys2Proof.Machine.Registered

variable {ι α : Type} (f : ι → α) (r : Registered α) (x : Option ι) (i : EdgeInput ι)

@[simp] theorem edge_stages : (r.edge f ⟨false, x⟩).stages = (x.map f :: r.stages).dropLast := rfl
@[simp] theorem edge_outValid : (r.edge f ⟨false, x⟩).outValid = (r.arriving (x.map f)).isSome := rfl
@[simp] theorem edge_reset_stages : (r.edge f ⟨true, x⟩).stages = r.stages.map fun _ => none := rfl
@[simp] theorem edge_reset_outValid : (r.edge f ⟨true, x⟩).outValid = false := rfl
@[simp] theorem edge_reset_read : (r.edge f ⟨true, x⟩).read = none := rfl

/-- An edge makes readable what arrives at the output registers, and nothing when nothing does. -/
@[simp] theorem edge_read : (r.edge f ⟨false, x⟩).read = r.arriving (x.map f) := by
  cases h : r.arriving (x.map f) <;> simp [edge, read, h]

@[simp] theorem edges_nil : r.edges f ([] : List (EdgeInput ι)) = r := rfl
@[simp] theorem edges_cons (rest : List (EdgeInput ι)) : r.edges f (i :: rest) = (r.edge f i).edges f rest := rfl

theorem edges_append (as bs : List (EdgeInput ι)) : r.edges f (as ++ bs) = (r.edges f as).edges f bs := by
  induction as generalizing r with
  | nil => rfl
  | cons a as ih => exact ih (r.edge f a)

/-- What is sampled at the `k`-th edge is what the edges before it have left at the outputs. -/
theorem samples_getElem? (ins : List (EdgeInput ι)) {k : Nat} (h : k < ins.length) :
    (r.samples f ins)[k]? = some (r.edges f (ins.take k)).sample := by
  induction ins generalizing r k with
  | nil => simp at h
  | cons a as ih =>
    cases k with
    | zero => rfl
    | succ k => exact ih (r.edge f a) (by simpa using h)

theorem samples_length (ins : List (EdgeInput ι)) : (r.samples f ins).length = ins.length := by
  induction ins generalizing r with
  | nil => rfl
  | cons a as ih => simp [samples, ih]

/-- The ranks with the output registers as the last, newest first: one list that an edge without reset shifts by one place. -/
def ranks : List (Option α) := r.stages ++ [r.read]

@[simp] theorem edge_ranks : (r.edge f ⟨false, x⟩).ranks = (x.map f :: r.ranks).dropLast := by
  rw [ranks, edge_read, edge_stages, ranks, ← List.cons_append, List.dropLast_concat, arriving]
  rcases List.eq_nil_or_concat r.stages with h | ⟨as, a, h⟩
  · simp [h]
  · simp only [h, List.concat_eq_append, List.getLast?_concat, ← List.cons_append, List.dropLast_concat]

@[simp] theorem edge_reset_ranks : (r.edge f ⟨true, x⟩).ranks = r.ranks.map fun _ => none := by
  simp [ranks]

/-- The output registers are the last rank. -/
theorem ranks_getLast? : r.ranks.getLast? = some r.read := by simp [ranks]

end Sys2Proof.Machine.Registered
end

