-- ==== Sys2Proof/Tests/Slice0.lean ====
section
/-! SUPPORT. Tests whose expected values are the spec's own (spec/95_test_vectors.md unless another place is named), and for every
statement with hypotheses a witness that meets them. -/

namespace Sys2Proof.Tests

open Sys2Proof Sys2Proof.Machine

-- WellFormed refuses an ill-formed term of each check (spec/30_encoding.md R35)

theorem test_nan_with_zero_fraction_is_ill_formed : (Instr.decode16Nan 0 0).wellFormed = false := by decide
theorem test_subnormal_with_zero_fraction_is_ill_formed : (Instr.decode16Subnormal 1 0).wellFormed = false := by decide
theorem test_normal_with_exponent_0_is_ill_formed : (Instr.decode16Normal 0 0 5).wellFormed = false := by decide
theorem test_normal_with_exponent_31_is_ill_formed : (Instr.decode16Normal 0 31 5).wellFormed = false := by decide

-- Decoding words written out from the patterns of spec/opcode_table.json

theorem test_decode_zero : decodeTableWord 16 0b1000000000000000 = some (.decode16Zero 1) := by decide
theorem test_decode_infinity : decodeTableWord 16 0b0111110000000000 = some (.decode16Infinity 0) := by decide
theorem test_decode_nan : decodeTableWord 16 0b1111111000000001 = some (.decode16Nan 1 0b1000000001) := by decide
theorem test_decode_subnormal : decodeTableWord 16 0b1000000111111110 = some (.decode16Subnormal 1 0b0111111110) := by decide
theorem test_decode_normal : decodeTableWord 16 0b0011110000000001 = some (.decode16Normal 0 0b01111 1) := by decide
theorem test_decode_whole : decode (.whole 0b0011110000000001) = .decode16 0x3C01 := by decide
theorem test_decode_operand :
    decodeTableWord 72 0b10000000000000000000000000000010110000000000000000000000000000011 =
      some (.encode16 1 0b101 0b10000000000000000000000000000011) := by decide
theorem test_decode_refuses_other_width : readTableWord 32 0 = .error (.noSuchWidth 32) := by rfl
theorem test_decode_refuses_stray_bits : readTableWord 16 0x10000 = .error (.strayBits 0x10000) := by rfl

-- DECODE16: vectors of section 2

theorem test_decode16_negative_five :
    nextSatisfies (exec (.decode16 0xC500) .reset) (fun t => t.dec.out == ⟨1, 17, 0x100, .normal, 0x0005000000⟩) = true := by decide
theorem test_decode16_nan_fields :
    nextSatisfies (exec (.decode16 0xFFFF) .reset)
      (fun t => t.dec.out.sign == 1 && t.dec.out.exp == 31 && t.dec.out.frac == 0x3FF && t.dec.out.cat == .nan) = true := by decide
theorem test_decode16Zero_keeps_sign :
    nextSatisfies (exec (.decode16Zero 1) .reset) (fun t => t.dec == ⟨0x8000, ⟨1, 0, 0, .zero, 0⟩⟩) = true := by decide
theorem test_decode16Infinity_fields :
    nextSatisfies (exec (.decode16Infinity 1) .reset)
      (fun t => t.dec.w == 0xFC00 && t.dec.out.sign == 1 && t.dec.out.exp == 31 && t.dec.out.cat == .infinity) = true := by decide
theorem test_decode16Nan_word :
    nextSatisfies (exec (.decode16Nan 1 0x200) .reset)
      (fun t => t.dec.w == 0xFE00 && t.dec.out.frac == 0x200 && t.dec.out.cat == .nan) = true := by decide
theorem test_decode16Subnormal_largest :
    nextSatisfies (exec (.decode16Subnormal 1 0x3FF) .reset)
      (fun t => t.dec == ⟨0x83FF, ⟨1, 0, 0x3FF, .subnormal, 0x00000003FF⟩⟩) = true := by decide
theorem test_decode16Normal_largest :
    nextSatisfies (exec (.decode16Normal 0 30 0x3FF) .reset)
      (fun t => t.dec == ⟨0x7BFF, ⟨0, 30, 0x3FF, .normal, 0xFFE0000000⟩⟩) = true := by decide
theorem test_decode16Normal_smallest :
    nextSatisfies (exec (.decode16Normal 0 1 0) .reset)
      (fun t => t.dec == ⟨0x0400, ⟨0, 1, 0, .normal, 0x0000000400⟩⟩) = true := by decide

-- ENCODE16: vectors of section 3

theorem test_encode16_truncates_all_ones :
    nextSatisfies (exec (.encode16 0 1 0xFFFFFFFF) .reset) (fun t => t.enc.out == ⟨0x3FFF, false, false, false⟩) = true := by decide
theorem test_encode16_subnormal_keeps_leading_one :
    nextSatisfies (exec (.encode16 1 0 0x00030000) .reset) (fun t => t.enc.out == ⟨0x8300, false, true, false⟩) = true := by decide

-- Steps: a table word placed at reset is performed (spec/95_test_vectors.md S8, S9), and an idle block stays as it is

theorem test_step_performs_placed_operand :
    nextSatisfies (step (State.reset.withFetchWord 72 ((1 <<< 32) ||| 0x80000000)))
      (fun t => t.enc.out.word == 0x3E00 && t.pending == []) = true := by decide
theorem test_step_performs_placed_word :
    nextSatisfies (step (State.reset.withFetchWord 16 0x0001))
      (fun t => t.dec == ⟨0x0001, ⟨0, 0, 1, .subnormal, 1⟩⟩ && t.enc == State.reset.enc) = true := by decide
theorem test_step_idle : nextSatisfies (step State.reset) (fun t => t == State.reset) = true := by decide

-- The seven steps on digits: 5.25 and 2^-24 of the trace table, and the range check

theorem test_steps_digits_of_five_and_a_quarter :
    leadingOne (intDigits 32 5) (fracDigits 2 1) = some (2, [false, true, false, true]) := by decide
theorem test_steps_underflow_loop :
    shiftLoop 10 true (List.replicate 10 false) = List.replicate 9 false ++ [true] := by decide
theorem test_steps_underflow_clamp : shiftLoop 11 true (List.replicate 10 false) = List.replicate 10 false := by decide
theorem test_range_check_32 : finishEncode 0 ⟨32, 0, false, false⟩ = .error 32 := by rfl

-- RNE: rows of spec/42_encoder_rne_option.md R92

theorem test_rne_tie_to_even_above : (encodeRne 32 32 (magnitudeBits 32 1 0x00600000)).F = 2 := by decide
theorem test_rne_tie_to_infinity : (encodeRne 32 32 (magnitudeBits 32 0xFFF0 0)).E = 31 := by decide

-- The real level, on rationals: the presentation of -0.1 (section 3 presents 0.1 so)

theorem test_present_tenth : presentFinite 32 32 0 (-1 / 10 : ℚ) = ⟨1, 0, 0x19999999⟩ := by decide +kernel
theorem test_present_saturates : (presentFinite 32 32 7 (2 ^ 40 : ℚ)).ip = 0xFFFFFFFF := by decide +kernel

-- The registered ENC and DEC (R126, R118): at latency 1 an operand sampled at an edge is there to sample at the next one, at latency 2 one
-- edge later, and an operand that a reset edge overtakes is not delivered

theorem test_registered_dec_latency_1 :
    (Registered.initial 1).samples decFunction [⟨false, some (0x3C00, 0)⟩, ⟨false, none⟩, ⟨false, none⟩] =
      [⟨false, none⟩, ⟨true, some ⟨0, 15, 0, .normal, 0x0001000000⟩⟩, ⟨false, none⟩] := by decide
theorem test_registered_enc_latency_2 :
    ((Registered.initial 2).samples encFunction [⟨false, some (0, 1, 0)⟩, ⟨false, none⟩, ⟨false, none⟩, ⟨false, none⟩]).map
      EdgeOutput.outValid = [false, false, true, false] := by decide
theorem test_registered_reset :
    (Registered.initial 2).samples decFunction
      [⟨false, some (0x0001, 0)⟩, ⟨true, none⟩, ⟨false, some (0x3C00, 0)⟩, ⟨false, none⟩, ⟨false, none⟩] =
      [⟨false, none⟩, ⟨false, none⟩, ⟨false, none⟩, ⟨false, none⟩, ⟨true, some ⟨0, 15, 0, .normal, 0x0001000000⟩⟩] := by decide

-- Build-time parameters (spec/00_scope.md R8)

theorem test_build_parameters :
    Config.fracBudget = 32 ∧ Config.intWidth = 32 ∧ Config.roundMode = .trunc ∧ Config.latency = 0 := by decide

-- Witnesses: concrete values meeting the hypotheses of each statement that has any

/-- DecodeEncodeAgree, TableWordsRoundTrip. -/
theorem witness_well_formed : ∀ i ∈ [Instr.decode16 0xFFFF, .decode16Zero 0, .decode16Infinity 1, .decode16Nan 1 1,
    .decode16Subnormal 0 0x3FF, .decode16Normal 1 1 0, .decode16Normal 0 30 0x3FF, .encode16 1 0xFFFFFFFF 0xFFFFFFFF],
    i.wellFormed = true := by decide

/-- TableWordsRoundTrip, StepPerformsOldestInvocation: a word that is read, one that is not, at the ends of the range. -/
theorem witness_table_words : decodeTableWord 16 0xFFFF = some (.decode16Nan 1 0x3FF) ∧ decodeTableWord 16 0x10000 = none ∧
    decodeTableWord 65 (2 ^ 65 - 1) = some (.encode16 1 0xFFFFFFFF 0xFFFFFFFF) ∧ decodeTableWord 72 (2 ^ 65) = none := by decide

/-- StepPerformsOldestInvocation: a state with something issued and one without. -/
theorem witness_pending : (State.reset.issue (.whole 0x3C00)).pending = .whole 0x3C00 :: [] ∧ State.reset.pending = [] := by decide

/-- StepKeepsPortsAgreeing: a state whose ports agree, with an ENC invocation issued, and its next state. -/
theorem witness_ports_agree : (State.reset.issue (.operand 0 1 0)).portsAgree ∧
    ∃ t, step (State.reset.issue (.operand 0 1 0)) = .next t :=
  ⟨⟨by rfl, 0, by decide⟩, _, rfl⟩

/-- NanWordsDecode, SubnormalWordsDecode, NormalWordsDecode: fields at the ends of their ranges. -/
theorem witness_class_fields : (1 : Fraction) ≠ 0 ∧ (0x3FF : Fraction) ≠ 0 ∧
    (1 : BiasedExp) ≠ 0 ∧ (1 : BiasedExp) ≠ 31 ∧ (30 : BiasedExp) ≠ 0 ∧ (30 : BiasedExp) ≠ 31 := by decide

/-- FiniteDecodingIsInjective, FiniteWordsRoundTrip, DecodedValuesEncodeBack: finite words of the three categories. -/
theorem witness_finite_words : magDefined (decodeWord 0x8000 0).cat = true ∧ magDefined (decodeWord 0x03FF 0).cat = true ∧
    magDefined (decodeWord 0x0400 0).cat = true ∧ magDefined (decodeWord 0x7BFF 0).cat = true := by decide

/-- FiniteDecodingIsInjective: the two words of its first clause, which can only be one. -/
theorem witness_same_sign_and_magnitude : (decodeWord 0x8001 0).sign = (decodeWord 0x8001 7).sign ∧
    (decodeWord 0x8001 0).mag = (decodeWord 0x8001 7).mag := by decide

/-- FiniteWordsOrderedAsMagnitudes: the ends of the finite range. -/
theorem witness_finite_order : (0x8000 : Word).toNat % 32768 ≤ 0x7BFF ∧ (0xFBFF : Word).toNat % 32768 ≤ 0x7BFF := by decide

/-- DecomposedViewOfDecodedValue: both categories. -/
theorem witness_decomposed : (decodeWord 0x83FF 0).cat = .subnormal ∧ (decodeWord 0x0400 0).cat = .normal := by decide

/-- Encode16OnEveryOperand: the least and the greatest magnitude of each clause. -/
theorem witness_operand_ranges :
    (0 < 2 ^ 18 ∧ 2 ^ 18 - 1 < 2 ^ 18) ∧ (2 ^ 18 ≤ 2 ^ 18 ∧ 2 ^ 18 < 2 ^ (18 + 1)) ∧
    (2 ^ 47 ≤ 2 ^ 48 - 1 ∧ 2 ^ 48 - 1 < 2 ^ (47 + 1)) ∧
    (0x10000#32).toNat * 2 ^ 32 + (0#32).toNat = 2 ^ 48 := by decide

/-- OverflowEncodesInfinity: the ends of both ranges. -/
theorem witness_overflow : 2 ^ 16 ≤ (0x10000 : Part).toNat ∧ 2 ^ 16 ≤ (0xFFFFFFFF : Part).toNat ∧
    65504 ≤ (0xFFE0 : Part).toNat ∧ (0xFFFF : Part).toNat < 65536 := by decide

/-- ZeroOperandEncodes, StatusOutputsOfEncoder: a nonzero real below 2^-32. -/
theorem witness_tiny_real : (2 : ℝ) ^ (-33 : ℤ) ≠ 0 ∧ |(2 : ℝ) ^ (-33 : ℤ)| < 2 ^ (-32 : ℤ) := by
  refine ⟨by positivity, ?_⟩
  rw [abs_of_pos (by positivity)]
  norm_num

/-- NormalizationFindsLeadingOne, SevenStepsAreCombinedForm, RangeErrorUnreachable, RneIsTruncOrNextWord: the least widths, the least
and the greatest operands. -/
theorem witness_widths : (17 ≤ 17 ∧ 32 ≤ 32 ∧ 0 < 2 ^ 17 ∧ 1 < 2 ^ 32 ∧ magnitudeBits 32 0 1 ≠ 0) ∧
    (2 ^ 17 - 1 < 2 ^ 17 ∧ 2 ^ 32 - 1 < 2 ^ 32 ∧ magnitudeBits 32 (2 ^ 17 - 1) (2 ^ 32 - 1) ≠ 0) := by decide

/-- RneIsTruncOrNextWord: an exactly representable magnitude, and one that overflows. -/
theorem witness_exact_magnitude : (decodeWord 0x3E00 0).mag.toNat * 2 ^ (32 - 24) = magnitudeBits 32 1 0x80000000 ∧
    2 ^ 16 ≤ 65536 := by decide

/-- RneIsNearestTiesToEven: a tie, whose word is finite and even. -/
theorem witness_rne_tie : encodeWord .rne 32 32 0 (1 : Part).toNat (0x00600000 : Part).toNat =
    .ok ⟨0x3C02, false, false, false⟩ := by rfl

/-- RangeCheckFiresOutsideFiveBits: the values on both sides of both ends. -/
theorem witness_range_ends : ((-1 : Int) < 0 ∨ (-1 : Int) > 31) ∧ ((32 : Int) < 0 ∨ (32 : Int) > 31) ∧
    (0 : Int) ≤ 0 ∧ (31 : Int) ≤ 31 := by decide

/-- LowFractionBitsDoNotMatter, EncodingIsMonotone: different operands that meet the hypothesis. -/
theorem witness_operand_pairs : (0x100 : Part).toNat / 2 ^ 8 = (0x1FF : Part).toNat / 2 ^ 8 ∧
    (0 : Part).toNat * 2 ^ 32 + (0xFFFFFFFF : Part).toNat ≤ (1 : Part).toNat * 2 ^ 32 + (0 : Part).toNat := by decide

/-- BitBudgetDoesNotMatter, IntegerWidthDoesNotMatter, ZeroAndOverflowBoundaries: least widths and greatest fractions. -/
theorem witness_budgets : 17 ≤ 17 ∧ 24 ≤ 24 ∧ 2 ^ 24 - 1 < 2 ^ 24 ∧ 32 ≤ 32 ∧ 2 ^ 32 - 1 < 2 ^ 32 := by decide

/-- SmallestSubnormalInterval: its lower end, negative. -/
theorem witness_smallest_subnormal : (2 : ℝ) ^ (-24 : ℤ) ≤ |-(2 : ℝ) ^ (-24 : ℤ)| ∧ |-(2 : ℝ) ^ (-24 : ℤ)| < 2 ^ (-23 : ℤ) := by
  rw [abs_neg, abs_of_pos (by positivity)]
  norm_num

/-- RepresentableRealsRoundTrip: the largest normal, negative, and the smallest. -/
theorem witness_representable : |(-65504 : ℝ)| = (1 + ((1023 : ℕ) : ℝ) / 2 ^ 10) * 2 ^ (15 : ℤ) ∧
    |((2 : ℝ) ^ (-14 : ℤ))| = (1 + ((0 : ℕ) : ℝ) / 2 ^ 10) * 2 ^ (-14 : ℤ) := by
  constructor
  · rw [abs_neg, abs_of_pos (by norm_num)]; norm_num
  · rw [abs_of_pos (by positivity)]; norm_num

/-- DecodeAfterEncodeTruncates, EncodesLargestNotExceeding: magnitudes of both clauses, and the ends of the words. -/
theorem witness_truncation : (0xFFFF#32).toNat < 2 ^ 16 ∧
    (((0#32).toNat : ℚ) + ((0x0003FFFF#32).toNat : ℚ) / 2 ^ 32 < 2 ^ (-14 : ℤ)) ∧
    ((2 : ℚ) ^ (-14 : ℤ) ≤ ((0#32).toNat : ℚ) + ((0x00040000#32).toNat : ℚ) / 2 ^ 32) ∧
    (((0xFFFF#32).toNat : ℚ) + ((0xFFFFFFFF#32).toNat : ℚ) / 2 ^ 32 < 2 ^ ((15 : ℤ) + 1)) := by
  norm_num

/-- ExponentChoosesPath, UnderflowLoopClosedForm: a magnitude at each end of each path. -/
theorem witness_paths : (normalize 32 32 0x0003FFFF).e = -15 ∧ (normalize 32 32 0x00040000).e = -14 ∧
    (normalize 32 32 (2 ^ 48 - 1)).e = 15 ∧ (normalize 32 32 (2 ^ 48)).e = 16 ∧ (normalize 32 32 1).e = -32 ∧
    (normalize 32 32 0x100).e = -24 ∧ (normalize 32 32 0xFF).e = -25 ∧ 2 ^ 48 < 2 ^ (32 + 32) := by decide

/-- UnderflowLoopClosedForm: shift counts at both sides of the clamp. -/
theorem witness_shift_counts : 1 ≤ 1 ∧ 1 ≤ 10 ∧ 10 ≤ 10 ∧ 1 ≤ 11 ∧ 11 ≤ 11 := by decide

/-- PresentationIsTheDoublingLoop: a fractional part at its lower end, a real just inside the port's range, and the
least magnitude that saturates. -/
theorem witness_presentable : (0 : ℝ) ≤ 0 ∧ (0 : ℝ) < 1 ∧ |(-4294967295.5 : ℝ)| < 2 ^ 32 ∧ 2 ^ 32 ≤ |(-4294967296 : ℝ)| := by
  refine ⟨le_rfl, one_pos, ?_, ?_⟩
  · rw [abs_of_neg (by norm_num)]; norm_num
  · rw [abs_of_neg (by norm_num)]; norm_num

/-- RegisteredUnitDeliversAfterLatency, at latency 2: registers of that length before and after a reset edge, an operand sampled after
a reset edge with no reset between it and the edge that delivers it, and a sample with and one without `out_valid`. -/
theorem witness_registered :
    let ins : List (EdgeInput Nat) := [⟨true, none⟩, ⟨false, some 5⟩, ⟨false, none⟩, ⟨false, none⟩]
    (Registered.initial (α := Nat) 2).stages.length + 1 = 2 ∧
    ((Registered.initial (α := Nat) 2).edge id ⟨true, some 5⟩).stages.length + 1 = 2 ∧
    ins[0]? = some ⟨true, none⟩ ∧ 0 < 2 ∧ 2 ≤ 0 + 2 ∧ 2 < ins.length ∧
    ins[1]? = some ⟨false, some 5⟩ ∧ 1 + 2 < ins.length ∧
    (∀ (j : Nat) (a : EdgeInput Nat), 1 < j → j < 1 + 2 → ins[j]? = some a → a.rst = false) ∧
    ((Registered.initial 2).samples id ins)[3]? = some ⟨true, some 5⟩ ∧ ((Registered.initial 2).samples id ins)[2]? = some ⟨false, none⟩ := by
  refine ⟨by decide, by decide, by decide, by decide, by decide, by decide, by decide, by decide, ?_, by decide, by decide⟩
  intro j a h h' ha
  obtain rfl : j = 2 := by omega
  cases ha
  rfl

end Sys2Proof.Tests
end

section
/-! PROOFS. The encoding's statements: the fields of a word (spec/30_encoding.md R33) and the category codes (R43). -/

namespace Sys2Proof

/-- R33's equation read from the word. -/
theorem toNat_eq_wordFields (w : Word) :
    w.toNat = (wordSign w).toNat * 2 ^ 15 + (wordExp w).toNat * 2 ^ 10 + (wordFrac w).toNat := by
  rw [wordSign_toNat, wordExp_toNat, wordFrac_toNat]
  have := w.isLt
  omega

/-- The other direction of `wordSign_packWord`, `wordExp_packWord` and `wordFrac_packWord`: no bit of a word lies outside its fields. -/
@[simp] theorem packWord_wordFields (w : Word) : packWord (wordSign w) (wordExp w) (wordFrac w) = w :=
  BitVec.eq_of_toNat_eq ((packWord_toNat _ _ _).trans (toNat_eq_wordFields w).symm)

/-- Field `S` is bit 15 (R33). -/
theorem wordSign_eq_ofBool (w : Word) : wordSign w = BitVec.ofBool (w.getLsbD 15) := by
  apply BitVec.eq_of_getLsbD_eq
  intro i hi
  obtain rfl : i = 0 := by omega
  simp [wordSign]

/-- Field `E` starts at bit 10 (R33). -/
theorem wordExp_getLsbD (w : Word) {i : Nat} (hi : i < 5) : (wordExp w).getLsbD i = w.getLsbD (10 + i) := by
  simp [wordExp, hi]

/-- Field `F` starts at bit 0 (R33). -/
theorem wordFrac_getLsbD (w : Word) {i : Nat} (hi : i < 10) : (wordFrac w).getLsbD i = w.getLsbD i := by
  simp [wordFrac, hi]

/-- Settles O4, from the fields as numbers and as bits. -/
theorem wordIsItsFields : Obligations.WordIsItsFields := fun w =>
  ⟨toNat_eq_wordFields w, packWord_wordFields w, wordSign_eq_ofBool w, fun _ => wordExp_getLsbD w, fun _ => wordFrac_getLsbD w⟩

namespace Machine

/-- The three pins never carry 5, 6 or 7 (R43). -/
theorem categoryCode_le_four (c : Category) : (categoryCode c).toNat ≤ 4 := by
  cases c <;> decide

/-- Settles O6: five codes by evaluation, and no other one whatever category the decoder's port holds. -/
theorem categoryCodesOnPins : Obligations.CategoryCodesOnPins :=
  ⟨rfl, rfl, rfl, rfl, rfl, fun s => categoryCode_le_four s.dec.out.cat⟩

end Machine

end Sys2Proof
end

section
/-! PROOFS. ENCODE16 up to its outputs: they are those of the packed fields on every operand (spec/41_encoder.md R78, R79), and the exponent
chooses the path (R74). -/

namespace Sys2Proof

/-- The priority table of R36 and DECODE16's tests of R51 give every word the same class. -/
theorem classify_eq_categoryOf (w : Word) : classify w = Machine.categoryOf (wordExp w) (wordFrac w) := by
  have hzero : w &&& 0x7FFF#16 = 0#16 ↔ wordExp w = 0 ∧ wordFrac w = 0 := by
    simp only [← BitVec.toNat_inj, and_7FFF_toNat, wordExp_toNat, wordFrac_toNat, BitVec.ofNat_eq_ofNat, BitVec.toNat_ofNat]
    omega
  have hinf : w &&& 0x7FFF#16 = 0x7C00#16 ↔ wordExp w = 31 ∧ wordFrac w = 0 := by
    simp only [← BitVec.toNat_inj, and_7FFF_toNat, wordExp_toNat, wordFrac_toNat, BitVec.ofNat_eq_ofNat, BitVec.toNat_ofNat]
    omega
  have hnan : w &&& 0x7C00#16 = 0x7C00#16 ↔ wordExp w = 31 := by
    simp only [← BitVec.toNat_inj, and_7C00_toNat, wordExp_toNat, BitVec.ofNat_eq_ofNat, BitVec.toNat_ofNat]
    omega
  have hsub : w &&& 0x7C00#16 = 0#16 ↔ wordExp w = 0 := by
    simp only [← BitVec.toNat_inj, and_7C00_toNat, wordExp_toNat, BitVec.ofNat_eq_ofNat, BitVec.toNat_ofNat]
    omega
  simp [classify, classRows, firstMatch, ClassRow.accepts, Machine.categoryOf, hzero, hinf, hnan, hsub]

/-- `E = 31` with an empty fraction is an infinity's word (R35). -/
theorem classify_packWord_infinity (s : Bit) : classify (packWord s 31 0) = .infinity := by
  simp [classify_eq_categoryOf, Machine.categoryOf]

/-- `E = 0` leaves only zeros and subnormals (R35). -/
theorem classify_packWord_exp_zero (s : Bit) (f : Fraction) :
    classify (packWord s 0 f) = .subnormal ∨ classify (packWord s 0 f) = .zero := by
  by_cases h : f = 0
  · exact .inr (by simp [classify_eq_categoryOf, Machine.categoryOf, h])
  · left
    rw [classify_eq_categoryOf, wordExp_packWord, wordFrac_packWord]
    simpa [Machine.categoryOf] using h

theorem packWord_zero : ∀ s : Bit, packWord s 0 0 = if s = 0 then 0x0000 else 0x8000 := by decide

theorem packWord_largestFinite : ∀ s : Bit, packWord s 30 0x3FF = if s = 0 then 0x7BFF else 0xFBFF := by decide

theorem packWord_infinity : ∀ s : Bit, packWord s 31 0 = if s = 0 then 0x7C00 else 0xFC00 := by decide

namespace Machine

/-- The outputs of ENC for packed fields that pass the range check (R78, R79). -/
def packedOut (s : Bit) (p : Packed) : EncOut :=
  ⟨packWord s (BitVec.ofInt 5 p.E) p.F, p.ovf, p.unf, false⟩

@[simp] theorem packedOut_word (s : Bit) (p : Packed) : (packedOut s p).word = packWord s (BitVec.ofInt 5 p.E) p.F := rfl
@[simp] theorem packedOut_ovf (s : Bit) (p : Packed) : (packedOut s p).ovf = p.ovf := rfl
@[simp] theorem packedOut_unf (s : Bit) (p : Packed) : (packedOut s p).unf = p.unf := rfl

/-- TRUNC has outputs on every operand: what it packs is always in range (R107). -/
theorem encodeWord_trunc (iw fb : Nat) (s : Bit) (ip fp : Nat) :
    encodeWord .trunc iw fb s ip fp = .ok (packedOut s (encodeTrunc iw fb (magnitudeBits fb ip fp))) :=
  have ⟨lo, hi⟩ := encodeTrunc_E_range iw fb (magnitudeBits fb ip fp)
  finishEncode_ok s lo hi

/-- The next state of ENCODE16. -/
theorem exec_encode16 (s : Bit) (ip fp : Part) (st : State) :
    exec (.encode16 s ip fp) st =
      .next (st.deliverEnc s ip fp (packedOut s (encodeTrunc 32 32 (magnitudeBits 32 ip.toNat fp.toNat)))) :=
  execEncode16_of_ok st (encodeWord_trunc 32 32 s ip.toNat fp.toNat)

/-- ENCODE16 goes on, with the outputs of the packed fields at the ports. -/
theorem exec_encode16_out (s : Bit) (ip fp : Part) (st : State) : ∃ t, exec (.encode16 s ip fp) st = .next t ∧
    t.enc.out = packedOut s (encodeTrunc 32 32 (magnitudeBits 32 ip.toNat fp.toNat)) :=
  ⟨_, exec_encode16 s ip fp st, rfl⟩

@[simp] theorem encodeTrunc_zero (iw fb : Nat) : encodeTrunc iw fb 0 = packedZero := rfl

theorem encodeTrunc_of_ne_zero (iw fb : Nat) {x : Nat} (h : x ≠ 0) : encodeTrunc iw fb x = classifyRange (normalize iw fb x) :=
  if_neg h

/-- The underflow path (R75). -/
theorem classifyRange_underflow {n : Normalized} (h : n.e < -14) : classifyRange n = ⟨0, subnormalFraction n, false, true⟩ := by
  simp [classifyRange, overflowFlag, underflowFlag, h]
  omega

/-- The overflow path (R76). -/
theorem classifyRange_overflow {n : Normalized} (h : 16 ≤ n.e) : classifyRange n = ⟨31, 0, true, false⟩ := by
  have h' : ¬ n.e < -14 := by omega
  simp [classifyRange, overflowFlag, underflowFlag, h, h']

/-- The normal path (R77). -/
theorem classifyRange_normal {n : Normalized} (lo : -14 ≤ n.e) (hi : n.e ≤ 15) :
    classifyRange n = ⟨n.e + 15, n.sig10, false, false⟩ := by
  have hlo : ¬ n.e < -14 := by omega
  have hhi : ¬ 16 ≤ n.e := by omega
  simp [classifyRange, overflowFlag, underflowFlag, hlo, hhi]

/-- Settles O26: the three windows of `e` are the three paths of the range classification. -/
theorem exponentChoosesPath : Obligations.ExponentChoosesPath := by
  intro iw fb x _ _ h0 _ n p
  have hp : p = classifyRange n := encodeTrunc_of_ne_zero iw fb h0
  refine ⟨fun ⟨lo, hi⟩ => ?_, fun h => ?_, fun h => ?_⟩
  · rw [hp, classifyRange_normal lo hi]
    exact ⟨rfl, by simp only; omega, by simp only; omega, rfl⟩
  · rw [hp, classifyRange_overflow h]
    exact ⟨rfl, rfl⟩
  · rw [hp, classifyRange_underflow h]

@[simp] theorem classifyRange_ovf (n : Normalized) : (classifyRange n).ovf = overflowFlag n.e := by
  unfold classifyRange; split_ifs <;> rfl

@[simp] theorem classifyRange_unf (n : Normalized) : (classifyRange n).unf = underflowFlag n.e := by
  unfold classifyRange; split_ifs <;> rfl

/-- R80's first form of `ovf`. -/
theorem encodeTrunc_ovf_iff (iw fb x : Nat) : (encodeTrunc iw fb x).ovf = true ↔ x ≠ 0 ∧ (normalize iw fb x).e ≥ 16 := by
  by_cases h0 : x = 0
  · simp [h0, packedZero]
  · simp [encodeTrunc_of_ne_zero iw fb h0, overflowFlag, h0]

/-- R80's first form of `unf`. -/
theorem encodeTrunc_unf_iff (iw fb x : Nat) : (encodeTrunc iw fb x).unf = true ↔ x ≠ 0 ∧ (normalize iw fb x).e < -14 := by
  by_cases h0 : x = 0
  · simp [h0, packedZero]
  · simp [encodeTrunc_of_ne_zero iw fb h0, underflowFlag, h0]

/-- The exponent against a power of two: `e` counts from the units of 2^-FB. -/
theorem normalize_e_lt_iff {iw fb x : Nat} (hx : x < 2 ^ (iw + fb)) (n : Nat) :
    (normalize iw fb x).e < (n : Int) - fb ↔ x < 2 ^ n := by
  rw [normalize_e hx, ← bitlen_le_iff]
  omega

theorem magnitudeBits_part_lt (ip fp : Part) : magnitudeBits 32 ip.toNat fp.toNat < 2 ^ (32 + 32) :=
  magnitudeBits_lt ip.isLt fp.isLt

/-- On this build the exponent overflows exactly with the integer part, whatever the fraction is (R76). -/
theorem overflow_iff_ip (ip fp : Part) :
    (normalize 32 32 (magnitudeBits 32 ip.toNat fp.toNat)).e ≥ 16 ↔ 2 ^ 16 ≤ ip.toNat := by
  have h := normalize_e_lt_iff (magnitudeBits_part_lt ip fp) 48
  have hf := fp.isLt
  simp only [magnitudeBits] at *
  omega

/-- On this build a nonzero magnitude underflows exactly below 2^18 units, and then `ip` is 0 (R80). -/
theorem underflow_iff_fp (ip fp : Part) :
    (magnitudeBits 32 ip.toNat fp.toNat ≠ 0 ∧ (normalize 32 32 (magnitudeBits 32 ip.toNat fp.toNat)).e < -14) ↔
      ip.toNat = 0 ∧ 0 < fp.toNat ∧ fp.toNat < 2 ^ 18 := by
  have h := normalize_e_lt_iff (magnitudeBits_part_lt ip fp) 18
  have hf := fp.isLt
  simp only [magnitudeBits] at *
  omega

/-- Settles O25: at `2^16` and more by the overflow path, from 65504 by the last binade, whose top eleven bits are then all 1. -/
theorem overflowEncodesInfinity : Obligations.OverflowEncodesInfinity := by
  intro sg ip fp st
  refine ⟨_, exec_encode16 sg ip fp st, overflow_iff_ip ip fp, fun h => ?_, fun lo hi => ?_⟩
  · have hX : 2 ^ (32 + 16) ≤ magnitudeBits 32 ip.toNat fp.toNat := by
      simp only [magnitudeBits]; omega
    rw [encodeTrunc_overflow (magnitudeBits_part_lt ip fp) hX]
    exact packWord_infinity sg
  · have hf := fp.isLt
    have hX : 2 ^ 47 ≤ magnitudeBits 32 ip.toNat fp.toNat ∧ magnitudeBits 32 ip.toNat fp.toNat < 2 ^ (47 + 1) ∧
        magnitudeBits 32 ip.toNat fp.toNat / 2 ^ (47 - 10) = 2047 := by
      simp only [magnitudeBits]; omega
    obtain ⟨hlo, hhi, htop⟩ := hX
    rw [encodeTrunc_normal (by norm_num) (by norm_num) (by norm_num) (by norm_num) hlo hhi, htop]
    exact ⟨packWord_largestFinite sg, rfl⟩

/-- A real below one unit of the fraction port is presented with both parts 0, its sign kept (R72; spec/30_encoding.md R40). -/
theorem presentFinite_tiny (iw anyFp : Nat) {fb : Nat} {v : ℝ} (h : |v| < 2 ^ (-(fb : ℤ))) :
    presentFinite iw fb anyFp v = ⟨if v < 0 then 1 else 0, 0, 0⟩ := by
  have hone : |v| < 1 := h.trans_le (zpow_le_one_of_nonpos₀ one_le_two (by omega))
  have hip : ⌊|v|⌋ = 0 := Int.floor_eq_zero_iff.2 ⟨abs_nonneg v, hone⟩
  have hunits : |v| * 2 ^ fb < 1 := by
    rwa [zpow_neg, zpow_natCast, ← one_div, lt_div_iff₀ (by positivity)] at h
  have hfp : ⌊|v| * 2 ^ fb⌋ = 0 := Int.floor_eq_zero_iff.2 ⟨by positivity, hunits⟩
  simp [presentFinite, hip, hfp]

/-- Settles O24: a zero magnitude takes no path, and a tiny real has no digit in the fraction port. -/
theorem zeroOperandEncodes : Obligations.ZeroOperandEncodes := by
  refine ⟨fun sg st => ⟨_, exec_encode16 sg 0 0 st, ?_⟩, fun v anyFp h => ?_⟩
  · simpa [packedOut, magnitudeBits, packedZero] using packWord_zero sg
  · rw [presentFinite_tiny (fb := 32) 32 anyFp h]
    exact ⟨rfl, rfl⟩

/-- The encoding of a finite number under TRUNC, from its presentation (R65). -/
theorem encodeValue_trunc_finite (iw fb anyFp : Nat) (v : ℝ) :
    encodeValue .trunc iw fb anyFp (.finite v) =
      .next (packedOut (presentFinite iw fb anyFp v).s
        (encodeTrunc iw fb (magnitudeBits fb (presentFinite iw fb anyFp v).ip (presentFinite iw fb anyFp v).fp))) := by
  simp only [encodeValue, present, encodeWord_trunc]

/-- An operand that overflows is not zero, so R80's condition on the exponent stands alone. -/
theorem encodeTrunc_ovf_iff_ip (ip fp : Part) :
    (encodeTrunc 32 32 (magnitudeBits 32 ip.toNat fp.toNat)).ovf = true ↔ 2 ^ 16 ≤ ip.toNat := by
  rw [encodeTrunc_ovf_iff, overflow_iff_ip, and_iff_right_of_imp]
  intro hip
  simp only [magnitudeBits]
  omega

/-- With `ovf` the word is an infinity (R80). -/
theorem packedOut_word_of_ovf {iw fb x : Nat} (sg : Bit) (h : (encodeTrunc iw fb x).ovf = true) :
    classify (packedOut sg (encodeTrunc iw fb x)).word = .infinity := by
  obtain ⟨h0, he⟩ := (encodeTrunc_ovf_iff iw fb x).1 h
  rw [encodeTrunc_of_ne_zero iw fb h0, classifyRange_overflow he]
  exact classify_packWord_infinity sg

/-- With `unf` the word is a subnormal or a zero (R80). -/
theorem packedOut_word_of_unf {iw fb x : Nat} (sg : Bit) (h : (encodeTrunc iw fb x).unf = true) :
    classify (packedOut sg (encodeTrunc iw fb x)).word = .subnormal ∨
      classify (packedOut sg (encodeTrunc iw fb x)).word = .zero := by
  obtain ⟨h0, he⟩ := (encodeTrunc_unf_iff iw fb x).1 h
  rw [encodeTrunc_of_ne_zero iw fb h0, classifyRange_underflow he]
  exact classify_packWord_exp_zero sg _

/-- The two flags stand for disjoint ranges of the exponent (R80). -/
theorem encodeTrunc_not_ovf_and_unf (iw fb x : Nat) : ¬ ((encodeTrunc iw fb x).ovf = true ∧ (encodeTrunc iw fb x).unf = true) := by
  rw [encodeTrunc_ovf_iff, encodeTrunc_unf_iff]
  omega

/-- Settles O28: both forms of each flag, and the word of the path that sets it. -/
theorem statusOutputsOfEncoder : Obligations.StatusOutputsOfEncoder := by
  refine ⟨fun sg ip fp st => ?_, fun v anyFp _ h => ?_⟩
  · obtain ⟨t, ht, hout⟩ := exec_encode16_out sg ip fp st
    refine ⟨t, ht, ?_⟩
    rw [hout, packedOut_ovf, packedOut_unf]
    exact ⟨⟨encodeTrunc_ovf_iff _ _ _, encodeTrunc_ovf_iff_ip ip fp, encodeTrunc_unf_iff _ _ _,
        (encodeTrunc_unf_iff _ _ _).trans (underflow_iff_fp ip fp)⟩,
      encodeTrunc_not_ovf_and_unf _ _ _, packedOut_word_of_ovf sg, packedOut_word_of_unf sg⟩
  · rw [encodeValue_trunc_finite, presentFinite_tiny (fb := 32) 32 anyFp h]
    exact ⟨_, rfl, by simp [packedOut, magnitudeBits, packedZero]⟩

/-- A finite number always has an operand, so it is encoded or ends in the range error, in either mode (R66). -/
theorem encodeValue_finite_not_refused (mode : RoundMode) (iw fb anyFp : Nat) (v : ℝ) (r : Refusal) :
    encodeValue mode iw fb anyFp (.finite v) ≠ .refused r := by
  unfold encodeValue present
  dsimp only
  split <;> simp

/-- Settles O48: the presentation refuses each by name, before any operand exists. -/
theorem nonFiniteInputsRefused : Obligations.NonFiniteInputsRefused := fun mode iw fb anyFp =>
  ⟨fun _ => rfl, rfl, fun _ _ _ => rfl, fun _ _ => rfl, encodeValue_finite_not_refused mode iw fb anyFp⟩

end Machine

end Sys2Proof
end

section
/-! PROOFS. The digit sequences of the seven steps as numbers: the underflow loop (spec/41_encoder.md R75), the leading 1 and the first ten
digits after it (R70, R71, R73). -/

namespace Sys2Proof.Machine

/-- Digits that are all 0 write the number 0. -/
theorem digitsToNat_eq_zero {ds : List Bool} (h : ds.all (fun b => !b) = true) : digitsToNat ds = 0 := by
  induction ds with
  | nil => rfl
  | cons b ds ih =>
    simp only [List.all_cons, Bool.and_eq_true, Bool.not_eq_true'] at h
    rw [digitsToNat_cons, h.1, ih h.2]
    simp

/-- One shift halves the digits with the front digit before them. -/
theorem digitsToNat_shift_eq_half (front : Bool) {ds : List Bool} (h : ds ≠ []) :
    digitsToNat (front :: ds.dropLast) = (front.toNat * 2 ^ ds.length + digitsToNat ds) / 2 := by
  obtain ⟨n, hn⟩ := Nat.exists_eq_add_one.2 (List.length_pos_iff.2 h)
  rw [digitsToNat_shift front h, hn, Nat.add_sub_cancel, pow_succ, ← mul_assoc]
  omega

theorem shiftLoop_succ (k : Nat) (front : Bool) (ds : List Bool) :
    shiftLoop (k + 1) front ds = if (front :: ds.dropLast).all (fun b => !b) then front :: ds.dropLast
      else shiftLoop k false (front :: ds.dropLast) := rfl

/-- The underflow loop is one right shift of the digits with the front digit before them; its early stop is at 0, which no further
shift changes (R75). -/
theorem digitsToNat_shiftLoop (k : Nat) (front : Bool) {ds : List Bool} (h : ds ≠ []) :
    digitsToNat (shiftLoop (k + 1) front ds) = (front.toNat * 2 ^ ds.length + digitsToNat ds) / 2 ^ (k + 1) := by
  induction k generalizing front ds with
  | zero => rw [shiftLoop_succ, shiftLoop, ite_self, digitsToNat_shift_eq_half front h, zero_add, pow_one]
  | succ k ih =>
    have hnext : digitsToNat (shiftLoop (k + 2) front ds) = digitsToNat (front :: ds.dropLast) / 2 ^ (k + 1) := by
      rw [shiftLoop_succ]
      split
      next hzero => rw [digitsToNat_eq_zero hzero, Nat.zero_div]
      next => rw [ih false (List.cons_ne_nil _ _), Bool.toNat_false, zero_mul, zero_add]
    rw [hnext, digitsToNat_shift_eq_half front h, Nat.div_div_eq_div_mul, ← pow_succ']

/-- The loop on the ten digits of a significand: the leading 1 enters at the front, with the weight 1024. -/
theorem digitsToNat_shiftLoop_sig10 (sig10 : Fraction) {k : Nat} (hk : 1 ≤ k) :
    digitsToNat (shiftLoop k true (fracDigits 10 sig10.toNat)) = (1024 + sig10.toNat) / 2 ^ k := by
  obtain ⟨k, rfl⟩ := Nat.exists_eq_add_of_le' hk
  have hne : fracDigits 10 sig10.toNat ≠ [] := List.ne_nil_of_length_eq_add_one (fracDigits_length 10 _)
  rw [digitsToNat_shiftLoop k true hne, digitsToNat_fracDigits, fracDigits_length, Nat.mod_eq_of_lt sig10.isLt]
  rfl

/-- Eleven bits are shifted out exactly by eleven places (R75). -/
theorem significand_shift_eq_zero_iff (sig10 : Fraction) (k : Nat) : (1024 + sig10.toNat) / 2 ^ k = 0 ↔ 11 ≤ k := by
  have hs := sig10.isLt
  rw [Nat.div_eq_zero_iff_lt (by positivity)]
  constructor
  · intro h
    by_contra hk
    have : 2 ^ k ≤ 2 ^ 10 := Nat.pow_le_pow_right two_pos (by omega)
    omega
  · intro hk
    have : 2 ^ 11 ≤ 2 ^ k := Nat.pow_le_pow_right two_pos hk
    omega

/-- The subnormal fraction needs no cut to ten bits: it has at least one shift (R75). -/
theorem subnormalFraction_toNat {n : Normalized} (h : n.e < -14) :
    (subnormalFraction n).toNat = (1024 + n.sig10.toNat) / 2 ^ (-14 - n.e).toNat := by
  have hs := n.sig10.isLt
  have hpow : 2 ^ 1 ≤ 2 ^ (-14 - n.e).toNat := Nat.pow_le_pow_right two_pos (by omega)
  have hlt : (1024 + n.sig10.toNat) / 2 ^ (-14 - n.e).toNat < 2 ^ 10 :=
    (Nat.div_le_div_left hpow (by norm_num)).trans_lt (by omega)
  rw [subnormalFraction, BitVec.toNat_ofNat, Nat.shiftRight_eq_div_pow, Nat.mod_eq_of_lt hlt]

/-- Settles O27: loop and shift agree on every significand, and the shift count is `-14 - e`. -/
theorem underflowLoopClosedForm : Obligations.UnderflowLoopClosedForm := by
  refine ⟨fun sig10 k hk => ?_, fun iw fb x _ _ h0 _ => ?_⟩
  · have hclamp := significand_shift_eq_zero_iff sig10 k
    rw [digitsToNat_shiftLoop_sig10 sig10 hk]
    exact ⟨rfl, fun _ => Nat.one_le_iff_ne_zero.2 fun h0 => absurd (hclamp.1 h0) (by omega), hclamp.2⟩
  · intro n he
    rw [encodeTrunc_of_ne_zero iw fb h0, classifyRange_underflow he]
    have hF := subnormalFraction_toNat he
    refine ⟨rfl, hF.trans (digitsToNat_shiftLoop_sig10 n.sig10 (by omega)).symm, ?_⟩
    rw [← BitVec.toNat_inj, hF, BitVec.ofNat_eq_ofNat, BitVec.toNat_ofNat, Nat.zero_mod, significand_shift_eq_zero_iff]
    omega

/-- The first digits of a sequence are its number without the rest. -/
theorem digitsToNat_take (n : Nat) (ds : List Bool) : digitsToNat (ds.take n) = digitsToNat ds / 2 ^ (ds.length - n) := by
  have hsplit := digitsToNat_append (ds.take n) (ds.drop n)
  rw [List.take_append_drop, List.length_drop] at hsplit
  have hlt := digitsToNat_lt (ds.drop n)
  rw [List.length_drop] at hlt
  rw [hsplit, mul_comm, Nat.mul_add_div (by positivity), Nat.div_eq_of_lt hlt, add_zero]

@[simp] theorem digitsToNat_replicate_false (n : Nat) : digitsToNat (List.replicate n false) = 0 :=
  digitsToNat_eq_zero (by simp)

/-- The first ten digits, padded, are the number in steps of ten digits below its leading place (R73). -/
theorem digitsToNat_take10 (ds : List Bool) : digitsToNat (take10 ds) = digitsToNat ds * 2 ^ 10 / 2 ^ ds.length := by
  rw [take10, digitsToNat_take, digitsToNat_append, digitsToNat_replicate_false, List.length_append, List.length_replicate,
    Nat.add_sub_cancel, add_zero]

/-- The integer digits of a nonzero number start with its leading 1 (R68, R70). -/
theorem intDigits_eq_cons {iw ip : Nat} (h0 : ip ≠ 0) (h : ip < 2 ^ iw) : ∃ rest, intDigits iw ip = true :: rest := by
  unfold intDigits
  induction iw generalizing ip with
  | zero => simp at h; exact absurd h h0
  | succ iw ih =>
    rw [remainderDigits, if_neg h0, List.reverse_cons]
    by_cases hhalf : ip / 2 = 0
    · have : ip = 1 := by omega
      subst this
      cases iw <;> exact ⟨[], rfl⟩
    · obtain ⟨rest, hrest⟩ := ih hhalf (by rw [pow_succ] at h; omega)
      exact ⟨_, by rw [hrest, List.cons_append]⟩

/-- A sequence that writes a nonzero number is zeros, the leading 1, and the digits after it. -/
theorem eq_zeros_one_rest {ds : List Bool} (h : digitsToNat ds ≠ 0) :
    ∃ i rest, ds = List.replicate i false ++ true :: rest := by
  induction ds with
  | nil => exact absurd rfl h
  | cons b ds ih =>
    cases b with
    | true => exact ⟨0, ds, rfl⟩
    | false =>
      obtain ⟨i, rest, hds⟩ := ih (by simpa [digitsToNat_cons] using h)
      exact ⟨i + 1, rest, by rw [hds]; rfl⟩

/-- A leading 1 among the integer digits (R70). -/
theorem leadingOne_cons (b : Bool) (rest fs : List Bool) :
    leadingOne (b :: rest) fs = some ((rest.length : Int), rest ++ fs) := by
  simp [leadingOne]

/-- A leading 1 among the fraction digits: the exponent counts the zeros before it (R71). -/
theorem leadingOne_nil (i : Nat) (rest : List Bool) :
    leadingOne [] (List.replicate i false ++ true :: rest) = some (-(i : Int) - 1, rest) := by
  have hfind : (List.replicate i false ++ true :: rest).findIdx? (fun b => b) = some i := by
    simp [List.findIdx?_append, List.findIdx?_replicate, List.findIdx?_cons]
  have hdrop : (List.replicate i false ++ true :: rest).drop (i + 1) = rest := by
    simp [List.drop_append]
  simp only [leadingOne, hfind, hdrop]

/-- Steps 2 to 4 together: what follows the leading 1 is the magnitude without that 1, and its length tells the exponent (R70, R71). -/
theorem leadingOne_digits {iw fb ip fp : Nat} (hi : ip < 2 ^ iw) (hf : fp < 2 ^ fb) (h0 : magnitudeBits fb ip fp ≠ 0) :
    ∃ sigseq, leadingOne (intDigits iw ip) (fracDigits fb fp) = some ((sigseq.length : Int) - fb, sigseq) ∧
      digitsToNat sigseq + 2 ^ sigseq.length = magnitudeBits fb ip fp := by
  have hfrac : digitsToNat (fracDigits fb fp) = fp := by rw [digitsToNat_fracDigits, Nat.mod_eq_of_lt hf]
  by_cases hip : ip = 0
  · have hfp : fp ≠ 0 := by simpa [magnitudeBits, hip] using h0
    obtain ⟨i, rest, hds⟩ := eq_zeros_one_rest (hfrac ▸ hfp)
    have hlen : fb = i + (rest.length + 1) := by simpa using congrArg List.length hds
    have hint : intDigits iw 0 = [] := by cases iw <;> rfl
    refine ⟨rest, ?_, ?_⟩
    · rw [hip, hint, hds, leadingOne_nil]
      congr 2
      omega
    · rw [hds, digitsToNat_append, digitsToNat_cons] at hfrac
      simp [magnitudeBits, hip] at hfrac ⊢
      omega
  · obtain ⟨rest, hrest⟩ := intDigits_eq_cons hip hi
    have hint : 2 ^ rest.length + digitsToNat rest = ip := by
      simpa [hrest, digitsToNat_cons] using digitsToNat_intDigits hi
    refine ⟨rest ++ fracDigits fb fp, ?_, ?_⟩
    · simp [hrest, leadingOne_cons]
    · rw [digitsToNat_append, hfrac, List.length_append, fracDigits_length, magnitudeBits, ← hint]
      ring

/-- The leading 1 of a number with `n` digits after it. -/
theorem bitlen_of_digits {ds : List Bool} {x : Nat} (h : digitsToNat ds + 2 ^ ds.length = x) : bitlen x = ds.length + 1 := by
  have := digitsToNat_lt ds
  exact bitlen_eq_of_bounds (by omega) (by rw [pow_succ]; omega)

/-- The first ten digits after the leading 1 are the combined form's `sig10` (R73). -/
theorem digitsToNat_take10_eq_sig10 {iw fb x : Nat} {ds : List Bool} (hx : x < 2 ^ (iw + fb)) (hw : 11 ≤ iw + fb)
    (h : digitsToNat ds + 2 ^ ds.length = x) : digitsToNat (take10 ds) = (normalize iw fb x).sig10.toNat := by
  have h0 : x ≠ 0 := fun hx0 => absurd (Nat.two_pow_pos ds.length) (by omega)
  have hbl := bitlen_of_digits h
  have hle := bitlen_le_iff.2 hx
  have hsig := normalize_sig10 (iw := iw) (fb := fb) h0 hx hw
  rw [hbl] at hsig hle
  have hcut : x * 2 ^ (iw + fb - (ds.length + 1)) / 2 ^ (iw + fb - 11) = x * 2 ^ 10 / 2 ^ ds.length := by
    rw [← Nat.mul_div_mul_right _ _ (show 0 < 2 ^ 10 by norm_num),
      ← Nat.mul_div_mul_right (x * 2 ^ 10) (2 ^ ds.length) (show 0 < 2 ^ (iw + fb - (ds.length + 1)) by positivity),
      ← pow_add, ← pow_add, mul_right_comm]
    congr 2
    omega
  have hten : x * 2 ^ 10 / 2 ^ ds.length = 1024 + digitsToNat (take10 ds) := by
    rw [digitsToNat_take10, ← h, add_mul, add_comm, Nat.mul_add_div (by positivity)]
    rfl
  omega

/-- A nonzero integer part alone fixes the bit length of the magnitude. -/
theorem bitlen_magnitudeBits {fb ip fp : Nat} (h0 : ip ≠ 0) (hf : fp < 2 ^ fb) :
    bitlen (magnitudeBits fb ip fp) = bitlen ip + fb := by
  have hpos := bitlen_pos h0
  have lo : 2 ^ (bitlen ip - 1 + fb) ≤ magnitudeBits fb ip fp := by
    rw [pow_add]
    exact (Nat.mul_le_mul_right _ (two_pow_bitlen_le h0)).trans (Nat.le_add_right _ _)
  have hi : magnitudeBits fb ip fp < 2 ^ (bitlen ip + fb) := magnitudeBits_lt (lt_two_pow_bitlen ip) hf
  have := bitlen_eq_of_bounds lo (by rwa [show bitlen ip - 1 + fb + 1 = bitlen ip + fb by omega])
  omega

/-- The operand's magnitude, a fraction of 2^FB units. -/
theorem magnitude_eq_div (fb ip fp : Nat) : (ip : ℚ) + (fp : ℚ) / 2 ^ fb = (magnitudeBits fb ip fp : ℚ) / 2 ^ fb := by
  rw [magnitudeBits]
  push_cast
  field_simp

/-- The exponent names the binade of the magnitude (R70, R71). -/
theorem normalize_e_binade {iw fb x : Nat} (h0 : x ≠ 0) (hx : x < 2 ^ (iw + fb)) :
    (2 : ℚ) ^ (normalize iw fb x).e ≤ (x : ℚ) / 2 ^ fb ∧ (x : ℚ) / 2 ^ fb < 2 ^ ((normalize iw fb x).e + 1) := by
  have hpos := bitlen_pos h0
  have he : (normalize iw fb x).e = ((bitlen x - 1 : ℕ) : ℤ) - (fb : ℤ) := by
    rw [normalize_e hx]; omega
  have he' : (normalize iw fb x).e + 1 = (bitlen x : ℤ) - (fb : ℤ) := by
    rw [normalize_e hx]; omega
  rw [he', he, zpow_sub₀ two_ne_zero, zpow_sub₀ two_ne_zero, zpow_natCast, zpow_natCast, zpow_natCast]
  constructor
  · gcongr
    exact_mod_cast two_pow_bitlen_le h0
  · gcongr
    exact_mod_cast lt_two_pow_bitlen x

/-- Settles O29: the exponent by the bit length of the magnitude, the digits by the two places a leading 1 can have. -/
theorem normalizationFindsLeadingOne : Obligations.NormalizationFindsLeadingOne := by
  intro iw fb ip fp hiw _ hi hf h0 n
  have hX := magnitudeBits_lt hi hf
  have he : n.e = (bitlen (magnitudeBits fb ip fp) : ℤ) - 1 - fb := normalize_e hX
  refine ⟨fun hip => ?_, fun hip => ?_, ?_⟩
  · rw [he, bitlen_magnitudeBits hip hf]
    push_cast
    ring
  · have hle := bitlen_le_iff.2 hf
    have hx : magnitudeBits fb ip fp = fp := by simp [magnitudeBits, hip]
    rw [he, hx, clz]
    omega
  · obtain ⟨sigseq, hlead, hdigits⟩ := leadingOne_digits hi hf h0
    have hlen : n.e = (sigseq.length : ℤ) - fb := by
      rw [he, bitlen_of_digits hdigits]
      push_cast
      ring
    obtain ⟨lo, hhi⟩ := normalize_e_binade h0 hX
    rw [magnitude_eq_div]
    exact ⟨lo, hhi, sigseq, hlen ▸ hlead, by omega, hdigits, digitsToNat_take10_eq_sig10 hX (by omega) hdigits⟩

end Sys2Proof.Machine
end

section
/-! PROOFS. ENCODE16 after a presentation and DECODE16 after it, on numbers that a normal word holds exactly (spec/43_composition_laws.md
R93), and the source's scenarios (R98 to R100). -/

namespace Sys2Proof.Machine

section
variable (s : Bit) (e : BiasedExp) (f : Fraction) (free : Magnitude)

/-- DECODE16 of a zero's word (R53). -/
theorem decodeWord_zero : decodeWord (packWord s 0 0) free = ⟨s, 0, 0, .zero, 0⟩ := by
  simp [decodeWord, categoryOf]

/-- DECODE16 of an infinity's word (R54). -/
theorem decodeWord_infinity : decodeWord (packWord s 31 0) free = ⟨s, 31, 0, .infinity, free⟩ := by
  simp [decodeWord, categoryOf]

variable {e f}

/-- DECODE16 of a NaN's word (R55). -/
theorem decodeWord_nan (hf : f ≠ 0) : decodeWord (packWord s 31 f) free = ⟨s, 31, f, .nan, free⟩ := by
  have hcat : categoryOf 31 f = .nan := by simpa [categoryOf] using hf
  simp only [decodeWord, wordSign_packWord, wordExp_packWord, wordFrac_packWord, hcat]

variable (f)

/-- DECODE16 of a normal's word (R57). -/
theorem decodeWord_normal (lo : 1 ≤ e.toNat) (hi : e.toNat ≤ 30) :
    decodeWord (packWord s e f) free = ⟨s, e, f, .normal, normalMagnitude e f⟩ := by
  have h0 : e ≠ 0 := by rintro rfl; simp at lo
  have h31 : e ≠ 31 := by rintro rfl; simp at hi
  have hcat : categoryOf e f = .normal := by
    rw [categoryOf, if_neg fun h => h0 h.1, if_neg fun h => h31 h.1, if_neg h31, if_neg h0]
  simp only [decodeWord, wordSign_packWord, wordExp_packWord, wordFrac_packWord, hcat]

/-- The number a normal's word stands for (R42, R57). -/
theorem valueOf_decodeWord_normal {K : Type} [Field K] [LinearOrder K] [FloorRing K] (lo : 1 ≤ e.toNat)
    (hi : e.toNat ≤ 30) :
    (valueOf (decodeWord (packWord s e f) free) : Value K) =
      .finite ((if s = 1 then -1 else 1) * ((1024 + (f.toNat : K)) * 2 ^ (e.toNat - 1)) / 2 ^ 24) := by
  rw [decodeWord_normal s f free lo hi]
  simp [valueOf, normalMagnitude_toNat f hi]

/-- In the binade of 1 the fraction is what lies above 1 (R57). -/
theorem valueOf_decodeWord_bias : valueOf (decodeWord (packWord 0 15 f) free) = .finite (1 + (f.toNat : ℚ) / 2 ^ 10) := by
  rw [valueOf_decodeWord_normal 0 f free (by decide) (by decide), if_neg (by decide), show (15 : BiasedExp).toNat - 1 = 14 from rfl]
  congr 1
  ring

end

/-- A real within the port's range is presented as its magnitude in units of 2^-FB, rounded down (spec/30_encoding.md R40). -/
theorem magnitudeBits_presentFinite {iw : Nat} (fb anyFp : Nat) {v : ℝ} (h : |v| < 2 ^ iw) :
    magnitudeBits fb (presentFinite iw fb anyFp v).ip (presentFinite iw fb anyFp v).fp = ⌊|v| * 2 ^ fb⌋₊ := by
  have hfits : ⌊|v|⌋₊ < 2 ^ iw := (Nat.floor_lt (abs_nonneg v)).2 (by exact_mod_cast h)
  have hsplit : |v| * 2 ^ fb = (|v| - ⌊|v|⌋₊) * 2 ^ fb + (⌊|v|⌋₊ * 2 ^ fb : ℕ) := by
    push_cast; ring
  have hnonneg : 0 ≤ (|v| - ⌊|v|⌋₊) * 2 ^ fb :=
    mul_nonneg (sub_nonneg.2 (Nat.floor_le (abs_nonneg v))) (by positivity)
  rw [hsplit, Nat.floor_add_natCast hnonneg, add_comm]
  simp [presentFinite, Int.floor_toNat, hfits, magnitudeBits]

/-- The sign of a presentation (R40). -/
theorem presentFinite_s (iw fb anyFp : Nat) (v : ℝ) : (presentFinite iw fb anyFp v).s = if v < 0 then 1 else 0 := by
  unfold presentFinite; dsimp only; split_ifs <;> rfl

/-- A magnitude of at most eleven significant bits in the normal window loses nothing (R77): `k` is its binade above the least normal one. -/
theorem encodeTrunc_exact {F k : Nat} (hF : F ≤ 1023) (hk : k ≤ 29) :
    encodeTrunc 32 32 ((1024 + F) * 2 ^ (k + 8)) = ⟨(k : Int) + 1, BitVec.ofNat 10 F, false, false⟩ := by
  have lo : 2 ^ (k + 18) ≤ (1024 + F) * 2 ^ (k + 8) := by
    rw [show k + 18 = 10 + (k + 8) by omega, pow_add 2 10]
    exact Nat.mul_le_mul_right _ (by omega)
  have hi : (1024 + F) * 2 ^ (k + 8) < 2 ^ (k + 18 + 1) := by
    rw [show k + 18 + 1 = 11 + (k + 8) by omega, pow_add 2 11]
    exact Nat.mul_lt_mul_of_pos_right (by omega) (by positivity)
  rw [encodeTrunc_normal (by norm_num) (by norm_num) (by omega) (by omega) lo hi, show k + 18 - 10 = k + 8 by omega,
    Nat.mul_div_cancel _ (by positivity), Nat.add_sub_cancel_left]
  congr 1
  push_cast
  ring

/-- The word of a real that a normal binary16 value holds exactly, in the decoder's units of 2^-24. -/
theorem encodeValue_exact {F k : Nat} (anyFp : Nat) (hF : F ≤ 1023) (hk : k ≤ 29) {v : ℝ}
    (hv : |v| = (1024 + F) * 2 ^ k / 2 ^ 24) :
    encodeValue .trunc 32 32 anyFp (.finite v) =
      .next (packedOut (if v < 0 then 1 else 0) ⟨(k : Int) + 1, BitVec.ofNat 10 F, false, false⟩) := by
  have hrange : |v| < 2 ^ 32 := by
    have hF' : (F : ℝ) ≤ 1023 := by exact_mod_cast hF
    have hk' : (2 : ℝ) ^ k ≤ 2 ^ 29 := pow_le_pow_right₀ one_le_two hk
    calc |v| = (1024 + F) * 2 ^ k / 2 ^ 24 := hv
      _ ≤ (1024 + 1023) * 2 ^ 29 / 2 ^ 24 := by gcongr
      _ < 2 ^ 32 := by norm_num
  have hunits : |v| * 2 ^ 32 = ((1024 + F) * 2 ^ (k + 8) : ℕ) := by
    rw [hv]; push_cast; ring
  rw [encodeValue_trunc_finite, presentFinite_s, magnitudeBits_presentFinite 32 anyFp hrange, hunits, Nat.floor_natCast,
    encodeTrunc_exact hF hk]

/-- A number from its sign and its magnitude. -/
theorem sign_mul_abs (v : ℝ) : (if (if v < 0 then 1 else 0 : Bit) = 1 then -1 else 1) * |v| = v := by
  by_cases h : v < 0
  · simp [h, abs_of_neg h]
  · simp [h, abs_of_nonneg (not_lt.1 h)]

/-- Settles O42: with `e = k - 14` the real is `(1024 + F) * 2^k` of the decoder's units, which the encoder packs without loss and the
decoder's magnitude restores. -/
theorem representableRealsRoundTrip : Obligations.RepresentableRealsRoundTrip := by
  intro v F e anyFp free hF lo hi hv
  obtain ⟨k, hk⟩ := Int.eq_ofNat_of_zero_le (show 0 ≤ e + 14 by omega)
  obtain rfl : e = (k : ℤ) - 14 := by omega
  have hunits : |v| = (1024 + F) * 2 ^ k / 2 ^ 24 := by
    rw [hv, zpow_sub₀ two_ne_zero, zpow_natCast]
    norm_num
    ring
  have hE : (k : ℤ) - 14 + 15 = k + 1 := by ring
  have hEnat : (BitVec.ofInt 5 ((k : ℤ) + 1)).toNat = k + 1 := by
    rw [BitVec.toNat_ofInt]; omega
  have hElo : 1 ≤ (BitVec.ofInt 5 ((k : ℤ) + 1)).toNat := by omega
  have hEhi : (BitVec.ofInt 5 ((k : ℤ) + 1)).toNat ≤ 30 := by omega
  refine ⟨_, encodeValue_exact anyFp hF (by omega) hunits, by rw [hE, packedOut_word], ?_, ?_⟩
  · rw [packedOut_word, decodeWord_normal _ _ free hElo hEhi]
  · rw [packedOut_word, valueOf_decodeWord_normal _ _ free hElo hEhi, hEnat, BitVec.toNat_ofNat, Nat.mod_eq_of_lt (by omega),
      Nat.add_sub_cancel, mul_div_assoc, ← hunits, sign_mul_abs]

/-- Settles O46: each pattern is the word of its class with its fields, and 1 and 3/2 are magnitudes that lose nothing. -/
theorem sourceScenarios : Obligations.SourceScenarios := by
  refine ⟨fun free => ?_, ?_, ?_⟩
  · have hzero : decodeWord 0x0000 free = _ := decodeWord_zero 0 free
    have hnegZero : decodeWord 0x8000 free = _ := decodeWord_zero 1 free
    have hinf : decodeWord 0x7C00 free = _ := decodeWord_infinity 0 free
    have hnegInf : decodeWord 0xFC00 free = _ := decodeWord_infinity 1 free
    have hnan : decodeWord 0x7C01 free = _ := decodeWord_nan (f := 1) 0 free (by decide)
    have hone : decodeWord 0x3C00 free = _ := decodeWord_normal (e := 15) 0 0 free (by decide) (by decide)
    have honeHalf : decodeWord 0x3E00 free = _ := decodeWord_normal (e := 15) 0 0x200 free (by decide) (by decide)
    have hvalOne : valueOf (decodeWord 0x3C00 free) = .finite (1 + ((0 : ℕ) : ℚ) / 2 ^ 10) := valueOf_decodeWord_bias 0 free
    have hvalOneHalf : valueOf (decodeWord 0x3E00 free) = .finite (1 + ((0x200 : ℕ) : ℚ) / 2 ^ 10) :=
      valueOf_decodeWord_bias 0x200 free
    rw [hvalOne, hvalOneHalf, hzero, hnegZero, hinf, hnegInf, hnan, hone, honeHalf]
    exact ⟨rfl, rfl, rfl, rfl, rfl, rfl, rfl, rfl, rfl, rfl, rfl, rfl, rfl, rfl, by norm_num, rfl, by norm_num⟩
  · rw [encodeWord_trunc, show magnitudeBits 32 1 0 = (1024 + 0) * 2 ^ (14 + 8) from rfl,
      encodeTrunc_exact (by norm_num) (by norm_num)]
    rfl
  · rw [encodeWord_trunc, show magnitudeBits 32 1 0x80000000 = (1024 + 0x200) * 2 ^ (14 + 8) from rfl,
      encodeTrunc_exact (by norm_num) (by norm_num)]
    rfl

end Sys2Proof.Machine
end

section
/-! PROOFS. Reading invocations as instructions: the class table as conditions on the fields (spec/30_encoding.md R35, R36), and the
instruction encoder as the inverse of the reading (R46, R47). -/

namespace Sys2Proof

namespace Machine

section
variable {e : BiasedExp} {f : Fraction}

/-- The conditions of R35 on the fields, class by class. -/
theorem categoryOf_eq_zero_iff : categoryOf e f = .zero ↔ e = 0 ∧ f = 0 := by
  unfold categoryOf; split_ifs <;> simp_all

theorem categoryOf_eq_infinity_iff : categoryOf e f = .infinity ↔ e = 31 ∧ f = 0 := by
  unfold categoryOf; split_ifs <;> simp_all

theorem categoryOf_eq_nan_iff : categoryOf e f = .nan ↔ e = 31 ∧ f ≠ 0 := by
  unfold categoryOf; split_ifs <;> simp_all

theorem categoryOf_eq_subnormal_iff : categoryOf e f = .subnormal ↔ e = 0 ∧ f ≠ 0 := by
  unfold categoryOf; split_ifs <;> simp_all

theorem categoryOf_eq_normal_iff : categoryOf e f = .normal ↔ e ≠ 0 ∧ e ≠ 31 := by
  unfold categoryOf; split_ifs <;> simp_all

end

end Machine

open Machine

/-- Every class row's instruction writes back the word it was read from (R46, R47). -/
theorem encode_classInstr_classify (w : Word) : encode (classInstr (classify w) w) = .byClass w := by
  rw [classify_eq_categoryOf]
  conv_rhs => rw [← packWord_wordFields w]
  cases h : categoryOf (wordExp w) (wordFrac w) with
  | zero => obtain ⟨he, hf⟩ := categoryOf_eq_zero_iff.1 h; rw [he, hf]; rfl
  | infinity => obtain ⟨he, hf⟩ := categoryOf_eq_infinity_iff.1 h; rw [he, hf]; rfl
  | nan => rw [(categoryOf_eq_nan_iff.1 h).1]; rfl
  | subnormal => rw [(categoryOf_eq_subnormal_iff.1 h).1]; rfl
  | normal => rfl

/-- A class row's conditions hold of the word that was read as it (R35). -/
theorem wellFormed_classInstr_classify (w : Word) : (classInstr (classify w) w).wellFormed = true := by
  rw [classify_eq_categoryOf]
  cases h : categoryOf (wordExp w) (wordFrac w) with
  | zero => rfl
  | infinity => rfl
  | nan => simpa [classInstr, Instr.wellFormed] using (categoryOf_eq_nan_iff.1 h).2
  | subnormal => simpa [classInstr, Instr.wellFormed] using (categoryOf_eq_subnormal_iff.1 h).2
  | normal => simpa [classInstr, Instr.wellFormed] using categoryOf_eq_normal_iff.1 h

theorem encode_decode (v : Invocation) : encode (decode v) = v := by
  cases v with
  | whole w => rfl
  | byClass w => exact encode_classInstr_classify w
  | operand s ip fp => rfl

theorem wellFormed_decode (v : Invocation) : (decode v).wellFormed = true := by
  cases v with
  | whole w => rfl
  | byClass w => exact wellFormed_classInstr_classify w
  | operand s ip fp => rfl

/-- A word by its fields is read as the row of their class, with those fields. -/
theorem decode_byClass_packWord {c : Category} {s : Bit} {e : BiasedExp} {f : Fraction} (h : categoryOf e f = c) :
    decode (.byClass (packWord s e f)) = classInstr c (packWord s e f) := by
  rw [decode, classify_eq_categoryOf, wordExp_packWord, wordFrac_packWord, h]

theorem decode_encode (i : Instr) (h : i.wellFormed = true) : decode (encode i) = i := by
  cases i with
  | decode16 w => rfl
  | decode16Zero s => exact (decode_byClass_packWord (s := s) (categoryOf_eq_zero_iff.2 ⟨rfl, rfl⟩)).trans (by simp [classInstr])
  | decode16Infinity s =>
    exact (decode_byClass_packWord (s := s) (categoryOf_eq_infinity_iff.2 ⟨rfl, rfl⟩)).trans (by simp [classInstr])
  | decode16Nan s f =>
    have hf : f ≠ 0 := by simpa [Instr.wellFormed] using h
    exact (decode_byClass_packWord (s := s) (categoryOf_eq_nan_iff.2 ⟨rfl, hf⟩)).trans (by simp [classInstr])
  | decode16Subnormal s f =>
    have hf : f ≠ 0 := by simpa [Instr.wellFormed] using h
    exact (decode_byClass_packWord (s := s) (categoryOf_eq_subnormal_iff.2 ⟨rfl, hf⟩)).trans (by simp [classInstr])
  | decode16Normal s e f =>
    have he : e ≠ 0 ∧ e ≠ 31 := by simpa [Instr.wellFormed] using h
    exact (decode_byClass_packWord (s := s) (f := f) (categoryOf_eq_normal_iff.2 he)).trans (by simp [classInstr])
  | encode16 s ip fp => rfl

/-- Settles O2: the class conditions make reading and writing inverse to each other, row by row. -/
theorem decodeEncodeAgree : Obligations.DecodeEncodeAgree :=
  ⟨decode_encode, fun v => ⟨wellFormed_decode v, encode_decode v⟩⟩

/-- Settles O5: the conditions on the fields, as numbers. -/
theorem classTableMatchesConditions : Obligations.ClassTableMatchesConditions := by
  intro w free E F
  have hE : E = (wordExp w).toNat := (wordExp_toNat w).symm
  have hF : F = (wordFrac w).toNat := (wordFrac_toNat w).symm
  have hlt := (wordExp w).isLt
  rw [classify_eq_categoryOf, categoryOf_eq_zero_iff, categoryOf_eq_subnormal_iff, categoryOf_eq_normal_iff,
    categoryOf_eq_infinity_iff, categoryOf_eq_nan_iff]
  simp only [ne_eq, ← BitVec.toNat_inj, ← hE, ← hF, BitVec.ofNat_eq_ofNat, BitVec.toNat_ofNat, decodeWord_cat, true_and, and_true]
  omega

/-- An ENC operand's bits by their places in the table's numbering (log 11). -/
theorem operand_pattern (s : Bit) (ip fp : Part) :
    (Invocation.operand s ip fp).pattern = s.toNat * 2 ^ 64 + ip.toNat * 2 ^ 32 + fp.toNat := by
  rw [Invocation.pattern, BitVec.toNat_append, BitVec.toNat_append, ← Nat.shiftLeft_add_eq_or_of_lt fp.isLt,
    ← Nat.shiftLeft_add_eq_or_of_lt ip.isLt, Nat.shiftLeft_eq, Nat.shiftLeft_eq]
  ring

/-- What a table word is read as has exactly the word's bits. -/
theorem pattern_of_readTableWord {nbits w : Nat} {v : Invocation} (h : readTableWord nbits w = .ok v) : v.pattern = w := by
  unfold readTableWord at h
  split_ifs at h with h16 hw hop hw
  · cases h
    exact Nat.mod_eq_of_lt hw
  · cases h
    rw [operand_pattern]
    simp only [operandBits, Nat.shiftRight_eq_div_pow, BitVec.toNat_ofNat] at *
    omega

/-- The decoder reads a table word exactly where it has the width and the range of a row (log 11). -/
theorem decodeTableWord_isSome_iff (nbits w : Nat) : (decodeTableWord nbits w).isSome = true ↔
    (nbits = 16 ∧ w < 2 ^ 16) ∨ ((nbits = 65 ∨ nbits = 72) ∧ w < 2 ^ 65) := by
  unfold decodeTableWord readTableWord operandBits
  split_ifs <;> simp <;> omega

theorem decodeTableWord_eq_some_iff {nbits w : Nat} {i : Instr} :
    decodeTableWord nbits w = some i ↔ ∃ v, readTableWord nbits w = .ok v ∧ decode v = i := by
  unfold decodeTableWord
  cases readTableWord nbits w <;> simp

theorem readTableWord_word (w : Word) : readTableWord 16 w.toNat = .ok (.byClass w) := by
  simp [readTableWord, w.isLt]

/-- The 65 bits of an operand, in nine bytes, are read as that operand. -/
theorem readTableWord_operand (s : Bit) (ip fp : Part) :
    readTableWord 72 (Invocation.operand s ip fp).pattern = .ok (.operand s ip fp) := by
  have hs := s.isLt
  have hip := ip.isLt
  have hfp := fp.isLt
  have hlt : (Invocation.operand s ip fp).pattern < 2 ^ operandBits := by rw [operand_pattern, operandBits]; omega
  have hsign : BitVec.ofNat 1 ((Invocation.operand s ip fp).pattern >>> 64) = s := BitVec.eq_of_toNat_eq (by
    rw [operand_pattern, BitVec.toNat_ofNat, Nat.shiftRight_eq_div_pow]; omega)
  have hint : BitVec.ofNat 32 ((Invocation.operand s ip fp).pattern >>> 32) = ip := BitVec.eq_of_toNat_eq (by
    rw [operand_pattern, BitVec.toNat_ofNat, Nat.shiftRight_eq_div_pow]; omega)
  have hfrac : BitVec.ofNat 32 (Invocation.operand s ip fp).pattern = fp := BitVec.eq_of_toNat_eq (by
    rw [operand_pattern, BitVec.toNat_ofNat]; omega)
  rw [readTableWord, if_neg (by decide), if_pos (.inr rfl), if_pos hlt, hsign, hint, hfrac]

/-- Where the instruction is encoded as a 16-bit word of a class row, the table word is that word and is read by the class rows. -/
theorem decodeTableWord_of_byClass {i : Instr} {w : Word} (h : i.wellFormed = true) (hbits : tableBits i = 16)
    (henc : encode i = .byClass w) : decodeTableWord (tableBits i) (tableWord i) = some i :=
  decodeTableWord_eq_some_iff.2 ⟨.byClass w, by rw [hbits, tableWord, henc]; exact readTableWord_word w,
    by rw [← henc, decode_encode i h]⟩

/-- Settles O3: the table's numbering loses no bit in either direction, and the two widths are all there is. -/
theorem tableWordsRoundTrip : Obligations.TableWordsRoundTrip := by
  refine ⟨fun i h => ?_, fun nbits w i h => ?_, decodeTableWord_isSome_iff⟩
  · cases i with
    | decode16 w => exact decodeTableWord_eq_some_iff.2 ⟨_, readTableWord_word w, rfl⟩
    | decode16Zero s => exact decodeTableWord_of_byClass h rfl rfl
    | decode16Infinity s => exact decodeTableWord_of_byClass h rfl rfl
    | decode16Nan s f => exact decodeTableWord_of_byClass h rfl rfl
    | decode16Subnormal s f => exact decodeTableWord_of_byClass h rfl rfl
    | decode16Normal s e f => exact decodeTableWord_of_byClass h rfl rfl
    | encode16 s ip fp => exact decodeTableWord_eq_some_iff.2 ⟨_, readTableWord_operand s ip fp, rfl⟩
  · obtain ⟨v, hread, rfl⟩ := decodeTableWord_eq_some_iff.1 h
    exact ⟨wellFormed_decode v, by rw [tableWord, encode_decode, pattern_of_readTableWord hread]⟩

/-- Settles O1: seven closed words, by evaluation. -/
theorem specWordsDecode : Obligations.SpecWordsDecode := by
  unfold Obligations.SpecWordsDecode
  decide

end Sys2Proof
end

section
/-! PROOFS. What performing an invocation does (spec/20_memory.md R28, R30): every invocation of either unit goes on, to a state in which
the unit's ports and the results hold the outputs of that invocation. -/

namespace Sys2Proof.Machine

/-- DECODE16 of a subnormal's word (R56). -/
theorem decodeWord_subnormal (s : Bit) {f : Fraction} (free : Magnitude) (hf : f ≠ 0) :
    decodeWord (packWord s 0 f) free = ⟨s, 0, f, .subnormal, subnormalMagnitude f⟩ := by
  have hcat : categoryOf 0 f = .subnormal := categoryOf_eq_subnormal_iff.2 ⟨rfl, hf⟩
  simp only [decodeWord, wordSign_packWord, wordExp_packWord, wordFrac_packWord, hcat]

/-- Each class row performs DECODE16 on the words of its class (R51, R53 to R57). -/
theorem exec_classInstr (s : Bit) (e : BiasedExp) (f : Fraction) (st : State) :
    exec (classInstr (categoryOf e f) (packWord s e f)) st =
      .next (st.deliverDec (packWord s e f) (decodeWord (packWord s e f) st.freeMag)) := by
  cases h : categoryOf e f with
  | zero =>
    obtain ⟨rfl, rfl⟩ := categoryOf_eq_zero_iff.1 h
    rw [decodeWord_zero, classInstr, wordSign_packWord]; rfl
  | infinity =>
    obtain ⟨rfl, rfl⟩ := categoryOf_eq_infinity_iff.1 h
    rw [decodeWord_infinity, classInstr, wordSign_packWord]; rfl
  | nan =>
    obtain ⟨rfl, hf⟩ := categoryOf_eq_nan_iff.1 h
    rw [decodeWord_nan _ _ hf, classInstr, wordSign_packWord, wordFrac_packWord]; rfl
  | subnormal =>
    obtain ⟨rfl, hf⟩ := categoryOf_eq_subnormal_iff.1 h
    rw [decodeWord_subnormal _ _ hf, classInstr, wordSign_packWord, wordFrac_packWord]; rfl
  | normal =>
    rw [decodeWord, wordSign_packWord, wordExp_packWord, wordFrac_packWord, h, classInstr, wordSign_packWord,
      wordExp_packWord, wordFrac_packWord]
    rfl

/-- Settles O18: the class row of a word has the word's own fields. -/
theorem wholeOperationIsItsClassRow : Obligations.WholeOperationIsItsClassRow := by
  intro w st
  have hrow := exec_classInstr (wordSign w) (wordExp w) (wordFrac w) st
  rw [packWord_wordFields, ← classify_eq_categoryOf] at hrow
  exact hrow.symm

/-- The outputs of an invocation; `free` is what `mag` carries where R59 leaves it open. -/
def outputsOf (free : Magnitude) : Invocation → Result
  | .whole w => .decoded (decodeWord w free)
  | .byClass w => .decoded (decodeWord w free)
  | .operand s ip fp => .encoded (packedOut s (encodeTrunc 32 32 (magnitudeBits 32 ip.toNat fp.toNat)))

/-- The state after an invocation: outputs delivered at the ports of its unit. -/
def State.performed (st : State) : Invocation → State
  | .whole w => st.deliverDec w (decodeWord w st.freeMag)
  | .byClass w => st.deliverDec w (decodeWord w st.freeMag)
  | .operand s ip fp => st.deliverEnc s ip fp (packedOut s (encodeTrunc 32 32 (magnitudeBits 32 ip.toNat fp.toNat)))

@[simp] theorem State.performed_pending (st : State) (v : Invocation) : (st.performed v).pending = st.pending := by
  cases v <;> rfl

@[simp] theorem State.performed_results (st : State) (v : Invocation) :
    (st.performed v).results = st.results ++ [outputsOf st.freeMag v] := by
  cases v <;> rfl

/-- Every instruction that an invocation reads as goes on, with the invocation performed (R47, R107). -/
theorem exec_decode (v : Invocation) (st : State) : exec (decode v) st = .next (st.performed v) := by
  cases v with
  | whole w => rfl
  | byClass w => exact (wholeOperationIsItsClassRow w st).symm
  | operand s ip fp => exact exec_encode16 s ip fp st

theorem step_cons {st : State} {v : Invocation} {rest : List Invocation} (h : st.pending = v :: rest) :
    step st = exec (decode v) (st.take rest) := by
  rw [step, h]

/-- What a step with something issued leaves. -/
theorem step_eq_performed {st : State} {v : Invocation} {rest : List Invocation} (h : st.pending = v :: rest) :
    step st = .next ((st.take rest).performed v) := by
  rw [step_cons h, exec_decode]

/-- The two kinds of step: idle, or the oldest invocation performed. -/
theorem step_cases (st : State) : (st.pending = [] ∧ step st = .next st) ∨
    ∃ v rest, st.pending = v :: rest ∧ step st = .next ((st.take rest).performed v) := by
  cases h : st.pending with
  | nil => exact .inl ⟨rfl, step_nil h⟩
  | cons v rest => exact .inr ⟨v, rest, rfl, step_eq_performed h⟩

/-- Settles O8: both kinds of step have a next state. -/
theorem stepNeverStops : Obligations.StepNeverStops := fun st => by
  obtain ⟨-, h⟩ | ⟨v, rest, -, h⟩ := step_cases st
  · exact ⟨_, h⟩
  · exact ⟨_, h⟩

/-- An invocation leaves its unit's outputs as the function of its own inputs, and the other unit's ports alone (R30, R118). -/
theorem State.portsAgree_performed {st : State} (h : st.portsAgree) (v : Invocation) : (st.performed v).portsAgree := by
  obtain ⟨henc, hdec⟩ := h
  cases v with
  | whole w => exact ⟨henc, st.freeMag, rfl⟩
  | byClass w => exact ⟨henc, st.freeMag, rfl⟩
  | operand s ip fp => exact ⟨encodeWord_trunc 32 32 s ip.toNat fp.toNat, hdec⟩

/-- Settles O9: by the two kinds of step; taking an invocation off the list touches no port. -/
theorem stepKeepsPortsAgreeing : Obligations.StepKeepsPortsAgreeing := by
  intro s t h hstep
  obtain ⟨-, hidle⟩ | ⟨v, rest, -, hnext⟩ := step_cases s
  · cases hidle.symm.trans hstep
    exact h
  · cases hnext.symm.trans hstep
    exact State.portsAgree_performed (st := s.take rest) h v

/-- Settles O10: zero operand and zero word have the outputs that reset shows. -/
theorem resetPortsAgree : Obligations.ResetPortsAgree :=
  ⟨⟨encodeWord_trunc 32 32 0 0 0, 0, (decodeWord_zero 0 0).symm⟩, rfl, rfl, rfl, rfl, rfl, rfl⟩

/-- Settles O7: a placed word is the list's first element, and taking it off restores the list. -/
theorem stepPerformsOldestInvocation : Obligations.StepPerformsOldestInvocation := by
  refine ⟨fun s v rest h => step_cons h, fun s h => step_nil h, fun s nbits w i h => ?_, fun s nbits w h => ?_⟩
  · obtain ⟨v, hread, rfl⟩ := decodeTableWord_eq_some_iff.1 h
    have hplaced : s.withFetchWord nbits w = { s with pending := v :: s.pending } := by rw [State.withFetchWord, hread]
    rw [hplaced, step_cons rfl]
    rfl
  · unfold decodeTableWord at h
    unfold State.withFetchWord
    cases hread : readTableWord nbits w with
    | ok v => rw [hread] at h; cases h
    | error e => rfl

/-- The free value is nothing that may be read of a magnitude (R59). -/
theorem readableMag_decodeWord (w : Word) (free free' : Magnitude) :
    readableMag (decodeWord w free) = readableMag (decodeWord w free') := by
  unfold readableMag
  by_cases h : magDefined (decodeWord w free).cat = true
  · rw [if_pos h, decodeWord_mag_free h free']; exact (if_pos h).symm
  · rw [if_neg h]; exact (if_neg h).symm

/-- Nor of a result (R59). -/
theorem seen_outputsOf (free free' : Magnitude) (v : Invocation) : seen (outputsOf free v) = seen (outputsOf free' v) := by
  cases v with
  | whole w => simp [outputsOf, seen, readableMag_decodeWord w free free']
  | byClass w => simp [outputsOf, seen, readableMag_decodeWord w free free']
  | operand s ip fp => rfl

/-- Steps until nothing is pending add the readable outputs of the invocations, in order. -/
theorem steps_pending (free : Magnitude) (vs : List Invocation) {st : State} (h : st.pending = vs) :
    ∃ t, steps vs.length st = some t ∧ t.pending = [] ∧
      t.results.map seen = st.results.map seen ++ vs.map fun v => seen (outputsOf free v) := by
  induction vs generalizing st with
  | nil => exact ⟨st, rfl, h, by simp⟩
  | cons v rest ih =>
    obtain ⟨t, hsteps, hdone, hresults⟩ := ih (st := (st.take rest).performed v) (by simp)
    refine ⟨t, ?_, hdone, ?_⟩
    · simp only [List.length_cons, steps, step_eq_performed h, hsteps]
    · have hseen := seen_outputsOf (st.take rest).freeMag free v
      simp [hresults, hseen]

/-- Settles O11: the fixed function is `outputsOf` with any free value, since nothing of that value may be read. -/
theorem outputsDependOnOwnInputsOnly : Obligations.OutputsDependOnOwnInputsOnly :=
  ⟨fun v => seen (outputsOf 0 v), fun _ => steps_pending 0 _ rfl⟩

end Sys2Proof.Machine
end

section
/-! PROOFS. DECODE16 row by row (spec/40_decoder.md R51 to R57), and its magnitude as a strictly growing function of the word without its
sign (R62). -/

namespace Sys2Proof

section
variable (w : Word)

/-- The classes as ranges of the word without its sign (R35). -/
theorem classify_eq_zero_iff : classify w = .zero ↔ w.toNat % 32768 = 0 := by
  obtain ⟨h, -, -, -, -, -⟩ := classTableMatchesConditions w 0
  rw [h]; omega

theorem classify_eq_subnormal_iff : classify w = .subnormal ↔ 1 ≤ w.toNat % 32768 ∧ w.toNat % 32768 ≤ 1023 := by
  obtain ⟨-, h, -, -, -, -⟩ := classTableMatchesConditions w 0
  rw [h]; omega

theorem classify_eq_normal_iff : classify w = .normal ↔ 1024 ≤ w.toNat % 32768 ∧ w.toNat % 32768 < 0x7C00 := by
  obtain ⟨-, -, h, -, -, -⟩ := classTableMatchesConditions w 0
  rw [h]; omega

theorem classify_eq_infinity_iff : classify w = .infinity ↔ w.toNat % 32768 = 0x7C00 := by
  obtain ⟨-, -, -, h, -, -⟩ := classTableMatchesConditions w 0
  rw [h]; omega

theorem classify_eq_nan_iff : classify w = .nan ↔ 0x7C00 < w.toNat % 32768 := by
  obtain ⟨-, -, -, -, h, -⟩ := classTableMatchesConditions w 0
  rw [h]; omega

end

/-- A word is its sign bit and the fifteen bits below it. -/
theorem toNat_eq_sign_add (w : Word) : w.toNat = (wordSign w).toNat * 32768 + w.toNat % 32768 := by
  rw [wordSign_toNat]; omega

namespace Machine

/-- DECODE16's category is the class of the word. -/
theorem decodeWord_cat_eq_classify (w : Word) (free : Magnitude) : (decodeWord w free).cat = classify w := by
  rw [decodeWord_cat, classify_eq_categoryOf]

/-- The finite words are those below the infinity's fields. -/
theorem magDefined_iff (w : Word) (free : Magnitude) :
    magDefined (decodeWord w free).cat = true ↔ w.toNat % 32768 < 0x7C00 := by
  have hinf := classify_eq_infinity_iff w
  have hnan := classify_eq_nan_iff w
  have hdef (c : Category) : magDefined c = true ↔ c ≠ .infinity ∧ c ≠ .nan := by cases c <;> decide
  rw [decodeWord_cat_eq_classify, hdef, ne_eq, ne_eq, hinf, hnan]
  omega

/-- The magnitude of the finite word with the fifteen bits `h` below its sign, in the decoder's units (R56, R57). -/
def fieldMagnitude (h : Nat) : Nat := if h < 1024 then h else (1024 + h % 1024) * 2 ^ (h / 1024 - 1)

/-- The port `mag` carries `fieldMagnitude` of the word without its sign (R51). -/
theorem decodeWord_mag_toNat {w : Word} (free : Magnitude) (h : w.toNat % 32768 < 0x7C00) :
    (decodeWord w free).mag.toNat = fieldMagnitude (w.toNat % 32768) := by
  have hexp := wordExp_toNat w
  have hfrac := wordFrac_toNat w
  have hclass := classify_eq_categoryOf w
  unfold fieldMagnitude
  cases hc : categoryOf (wordExp w) (wordFrac w) with
  | zero =>
    rw [(classify_eq_zero_iff w).1 (hclass.trans hc)]
    simp only [decodeWord, hc]
    rfl
  | subnormal =>
    have hrange := (classify_eq_subnormal_iff w).1 (hclass.trans hc)
    simp only [decodeWord, hc]
    rw [subnormalMagnitude_toNat, if_pos (by omega)]
    omega
  | normal =>
    have hrange := (classify_eq_normal_iff w).1 (hclass.trans hc)
    simp only [decodeWord, hc]
    rw [normalMagnitude_toNat _ (by omega), if_neg (by omega)]
    congr 3 <;> omega
  | infinity => exact absurd ((classify_eq_infinity_iff w).1 (hclass.trans hc)) (by omega)
  | nan => exact absurd ((classify_eq_nan_iff w).1 (hclass.trans hc)) (by omega)

theorem fieldMagnitude_of_lt {h : Nat} (hlt : h < 1024) : fieldMagnitude h = h := if_pos hlt

/-- A biased exponent and a fraction in one field (R57). -/
theorem fieldMagnitude_of_le {h : Nat} (hle : 1024 ≤ h) : fieldMagnitude h = (1024 + h % 1024) * 2 ^ (h / 1024 - 1) :=
  if_neg (Nat.not_lt.2 hle)

/-- On the grid of `2^j` units the fields count the grid steps, up to the next binade's first one. -/
theorem fieldMagnitude_grid {j q : Nat} (hlo : j = 0 ∨ 1024 ≤ q) (hhi : q ≤ 2048) :
    fieldMagnitude (j * 1024 + q) = q * 2 ^ j := by
  by_cases hsub : j * 1024 + q < 1024
  · obtain rfl : j = 0 := by omega
    simpa using fieldMagnitude_of_lt hsub
  · rw [fieldMagnitude_of_le (Nat.not_lt.1 hsub)]
    obtain rfl | hq : q = 2048 ∨ q < 2048 := by omega
    · rw [show (j * 1024 + 2048) % 1024 = 0 by omega, show (j * 1024 + 2048) / 1024 - 1 = j + 1 by omega, pow_succ]
      ring
    · rw [show (j * 1024 + q) % 1024 = q - 1024 by omega, show (j * 1024 + q) / 1024 - 1 = j by omega,
        Nat.add_sub_cancel' (by omega)]

/-- Every field is a grid step of some binade. -/
theorem exists_grid (h : Nat) : ∃ j q, h = j * 1024 + q ∧ (j = 0 ∨ 1024 ≤ q) ∧ q < 2048 :=
  ⟨h / 1024 - 1, h - (h / 1024 - 1) * 1024, by omega, by omega, by omega⟩

/-- A larger field has a larger magnitude, by at least one step of its grid (R62 (c)). -/
theorem fieldMagnitude_strictMono : StrictMono fieldMagnitude := by
  refine strictMono_nat_of_lt_succ fun h => ?_
  obtain ⟨j, q, rfl, hlo, hhi⟩ := exists_grid h
  rw [fieldMagnitude_grid hlo hhi.le, Nat.add_assoc, fieldMagnitude_grid (hlo.imp_right fun _ => by omega) hhi]
  exact Nat.mul_lt_mul_of_pos_right (Nat.lt_succ_self q) (by positivity)

theorem bit_eq_zero_or_one (s : Bit) : s = 0 ∨ s = 1 := by
  revert s; decide

/-- The factor of R42 for a sign bit. -/
theorem ite_sign_eq_neg_one_pow {K : Type} [Ring K] (s : Bit) : (if s = 1 then -1 else 1 : K) = (-1) ^ s.toNat := by
  obtain rfl | rfl := bit_eq_zero_or_one s <;> simp

/-- The value of a result that is finite and not zero (R42). -/
theorem valueOf_eq_finite {K : Type} [Field K] {o : DecOut}
    (h : o.cat = .subnormal ∨ o.cat = .normal) :
    (valueOf o : Value K) = .finite ((-1) ^ o.sign.toNat * (o.mag.toNat : K) / 2 ^ 24) := by
  rw [← ite_sign_eq_neg_one_pow]
  obtain h | h := h <;> simp only [valueOf, h]

section
variable {K : Type} [Field K] {o : DecOut}

theorem valueOf_zero (h : o.cat = .zero) : (valueOf o : Value K) = .zero o.sign := by simp only [valueOf, h]

theorem valueOf_infinity (h : o.cat = .infinity) : (valueOf o : Value K) = .infinity o.sign := by simp only [valueOf, h]

theorem valueOf_nan (h : o.cat = .nan) : (valueOf o : Value K) = .nan := by simp only [valueOf, h]

end

/-- Settles O12: the row's outputs by its definition, the words by their class. -/
theorem zeroWordsDecode : Obligations.ZeroWordsDecode := by
  refine ⟨fun sg st => ⟨_, rfl, packWord_zero sg, rfl, rfl, rfl, rfl, rfl, rfl, rfl, rfl, rfl, rfl⟩, fun w free => ?_⟩
  rw [decodeWord_cat_eq_classify, classify_eq_zero_iff]
  simp only [← BitVec.toNat_inj, BitVec.ofNat_eq_ofNat, BitVec.toNat_ofNat]
  omega

/-- Settles O13: likewise, the magnitude being the free value. -/
theorem infinityWordsDecode : Obligations.InfinityWordsDecode := by
  refine ⟨fun sg st => ⟨_, rfl, packWord_infinity sg, rfl, rfl, rfl, rfl, rfl, rfl, rfl, rfl, rfl, rfl⟩, fun w free => ?_⟩
  rw [decodeWord_cat_eq_classify, classify_eq_infinity_iff]
  simp only [← BitVec.toNat_inj, BitVec.ofNat_eq_ofNat, BitVec.toNat_ofNat]
  omega

/-- Settles O14: likewise; a NaN's words are those above the infinity's of the same sign. -/
theorem nanWordsDecode : Obligations.NanWordsDecode := by
  refine ⟨fun sg f st _ => ⟨_, rfl, rfl, rfl, rfl, rfl, rfl, rfl, rfl, rfl, rfl, rfl, rfl⟩, fun w free => ?_⟩
  rw [decodeWord_cat_eq_classify, classify_eq_nan_iff]
  omega

/-- Settles O15: the port `mag` carries the fraction, in units of `2^-24 = 2^-10 * 2^-14`. -/
theorem subnormalWordsDecode : Obligations.SubnormalWordsDecode := by
  intro sg f st hf
  have hmag := subnormalMagnitude_toNat f
  have hpos : f.toNat ≠ 0 := fun h => hf (BitVec.eq_of_toNat_eq h)
  have hlt := f.isLt
  refine ⟨_, rfl, rfl, rfl, rfl, rfl, rfl, ?_, hmag, ?_, ?_, rfl, rfl, rfl, rfl⟩
  · rw [valueOf_eq_finite (.inl rfl)]
    dsimp only [State.deliverDec_dec]
    rw [hmag]
    congr 1
    norm_num
    ring
  · exact hmag ▸ Nat.one_le_iff_ne_zero.2 hpos
  · exact hmag ▸ Nat.le_of_lt_succ hlt

/-- A normal's biased exponent is from 1 to 30 (R35). -/
theorem normal_exp_bounds {e : BiasedExp} (h0 : e ≠ 0) (h31 : e ≠ 31) : 1 ≤ e.toNat ∧ e.toNat ≤ 30 := by
  have hlt := e.isLt
  simp only [ne_eq, ← BitVec.toNat_inj, BitVec.ofNat_eq_ofNat, BitVec.toNat_ofNat] at h0 h31
  omega

/-- Settles O16: eleven significant bits shifted by at most 29 places stay within the 40 bits of `mag`. -/
theorem normalWordsDecode : Obligations.NormalWordsDecode := by
  intro sg e f st h0 h31
  obtain ⟨lo, hi⟩ := normal_exp_bounds h0 h31
  have hmag := normalMagnitude_toNat f hi
  have hlt := f.isLt
  refine ⟨_, rfl, rfl, rfl, rfl, rfl, rfl, ?_, hmag.trans (Nat.shiftLeft_eq _ _).symm, ?_, ?_, rfl, rfl, rfl, rfl⟩
  · rw [valueOf_eq_finite (.inr rfl)]
    dsimp only [State.deliverDec_dec]
    have hexp : ((e.toNat : ℤ) - 15) = ((e.toNat - 1 : ℕ) : ℤ) - 14 := by omega
    rw [hmag, hexp, zpow_sub₀ two_ne_zero, zpow_natCast]
    congr 1
    push_cast
    norm_num
    ring
  · have hone : 1 ≤ 2 ^ (e.toNat - 1) := Nat.one_le_two_pow
    calc 0x400 = 0x400 * 1 := rfl
      _ ≤ (1024 + f.toNat) * 2 ^ (e.toNat - 1) := Nat.mul_le_mul (by omega) hone
      _ = _ := hmag.symm
  · have htop : 2 ^ (e.toNat - 1) ≤ 2 ^ 29 := Nat.pow_le_pow_right two_pos (by omega)
    calc _ = (1024 + f.toNat) * 2 ^ (e.toNat - 1) := hmag
      _ ≤ 2047 * 2 ^ 29 := Nat.mul_le_mul (by omega) htop
      _ = 0xFFE0000000 := by norm_num

/-- Settles O17: by the branch that the fields choose. -/
theorem decode16OnEveryWord : Obligations.Decode16OnEveryWord := by
  intro w st
  refine ⟨_, execDecode16_dec w st, rfl, wordSign_toNat w, wordExp_toNat w, wordFrac_toNat w, ?_, valueOf_zero, valueOf_infinity,
    valueOf_nan, fun h => ?_, rfl, rfl, rfl⟩
  · intro E F
    have hzero := classify_eq_zero_iff w
    have hsub := classify_eq_subnormal_iff w
    have hnormal := classify_eq_normal_iff w
    have hinf := classify_eq_infinity_iff w
    have hnan := classify_eq_nan_iff w
    have hmag (h : w.toNat % 32768 < 0x7C00) := decodeWord_mag_toNat st.freeMag h
    have hcat := decodeWord_cat_eq_classify w st.freeMag
    have hE : E = w.toNat % 32768 / 1024 := by omega
    have hF : F = w.toNat % 32768 % 1024 := by omega
    rw [State.deliverDec_dec, State.deliverDec_draws, hcat]
    split
    next h =>
      have hh : w.toNat % 32768 = 0 := by omega
      rw [hzero.2 hh]
      exact ⟨rfl, by rw [hmag (by omega), hh]; rfl, rfl⟩
    split
    next h => rw [hinf.2 (by omega)]; exact ⟨rfl, rfl⟩
    split
    next h => rw [hnan.2 (by omega)]; exact ⟨rfl, rfl⟩
    split
    next h =>
      rw [hsub.2 (by omega)]
      exact ⟨rfl, by rw [hmag (by omega), fieldMagnitude_of_lt (by omega)]; omega, rfl⟩
    next h =>
      rw [hnormal.2 (by omega)]
      exact ⟨rfl, by rw [hmag (by omega), fieldMagnitude_of_le (by omega), hE, hF], rfl⟩
  · rw [valueOf_eq_finite h, zpow_neg, div_eq_mul_inv]
    rfl

section
variable (w : Word)

/-- Flipping bit 15 changes no bit of the exponent field (R33). -/
theorem wordExp_flipSign : wordExp (w ^^^ 0x8000#16) = wordExp w := by
  apply BitVec.eq_of_getLsbD_eq
  intro i hi
  rw [wordExp_getLsbD _ hi, wordExp_getLsbD _ hi, BitVec.getLsbD_xor]
  interval_cases i <;> simp

theorem wordFrac_flipSign : wordFrac (w ^^^ 0x8000#16) = wordFrac w := by
  apply BitVec.eq_of_getLsbD_eq
  intro i hi
  rw [wordFrac_getLsbD _ hi, wordFrac_getLsbD _ hi, BitVec.getLsbD_xor]
  interval_cases i <;> simp

theorem wordSign_flipSign : wordSign (w ^^^ 0x8000#16) = ~~~ wordSign w := by
  rw [wordSign_eq_ofBool, wordSign_eq_ofBool, BitVec.getLsbD_xor]
  cases w.getLsbD 15 <;> rfl

end

/-- The decoder's outputs do not depend on bit 15 but for the sign (R62 (d)). -/
theorem decodeWord_flipSign (w : Word) (free : Magnitude) :
    decodeWord (w ^^^ 0x8000#16) free = { decodeWord w free with sign := ~~~ wordSign w } := by
  simp only [decodeWord, wordSign_flipSign, wordExp_flipSign, wordFrac_flipSign]

/-- Settles O19: for the same free value the outputs are equal but for the sign, and no free value may be read. -/
theorem signBitOnlyNegates : Obligations.SignBitOnlyNegates := by
  intro w free free' a b
  have hmag : readableMag b = readableMag (decodeWord w free') := by
    rw [show b = _ from decodeWord_flipSign w free']; rfl
  exact ⟨wordSign_flipSign w, wordExp_flipSign w, wordFrac_flipSign w,
    by rw [decodeWord_cat, decodeWord_cat, wordExp_flipSign, wordFrac_flipSign], hmag.trans (readableMag_decodeWord w free' free)⟩

/-- The magnitude tells the class of a finite word by its range (R62 (b)). -/
theorem fieldMagnitude_lt_iff {h : Nat} : fieldMagnitude h < 1024 ↔ h < 1024 := by
  have h1024 : fieldMagnitude (0 * 1024 + 1024) = 1024 * 2 ^ 0 := fieldMagnitude_grid (.inl rfl) (by norm_num)
  rw [zero_mul, zero_add, pow_zero, mul_one] at h1024
  rw [← fieldMagnitude_strictMono.lt_iff_lt (a := h), h1024]

/-- Settles O20: the magnitude determines the fifteen bits below the sign, and has 11 bits above `E - 1` of them when normal. -/
theorem finiteDecodingIsInjective : Obligations.FiniteDecodingIsInjective := by
  refine ⟨fun w w' free free' h h' hsign hmag => ?_, fun w free h => ?_⟩
  · have hfield : w.toNat % 32768 = w'.toNat % 32768 := fieldMagnitude_strictMono.injective (by
      rw [← decodeWord_mag_toNat free ((magDefined_iff w free).1 h), hmag,
        decodeWord_mag_toNat free' ((magDefined_iff w' free').1 h')])
    have hbit : (wordSign w).toNat = (wordSign w').toNat := congrArg BitVec.toNat hsign
    exact BitVec.eq_of_toNat_eq (by rw [toNat_eq_sign_add w, toNat_eq_sign_add w', hbit, hfield])
  · have hfin := (magDefined_iff w free).1 h
    have hlt := fieldMagnitude_lt_iff (h := w.toNat % 32768)
    have hsmall (h : w.toNat % 32768 < 1024) := fieldMagnitude_of_lt h
    intro o
    have hcat : o.cat = classify w := decodeWord_cat_eq_classify w free
    have hmag : o.mag.toNat = fieldMagnitude (w.toNat % 32768) := decodeWord_mag_toNat free hfin
    have hfrac : o.frac.toNat = w.toNat % 1024 := wordFrac_toNat w
    have hexp : o.exp.toNat = w.toNat / 1024 % 32 := wordExp_toNat w
    rw [hcat, hmag, classify_eq_zero_iff, classify_eq_subnormal_iff, classify_eq_normal_iff]
    refine ⟨by omega, by omega, by omega, by omega, fun hn => ?_⟩
    have hbits : bitlen (fieldMagnitude (w.toNat % 32768)) = w.toNat % 32768 / 1024 - 1 + 10 + 1 := by
      rw [fieldMagnitude_of_le hn.1]
      apply bitlen_eq_of_bounds
      · rw [pow_add, mul_comm]
        exact Nat.mul_le_mul_right _ (by omega)
      · rw [Nat.add_assoc, pow_add, mul_comm]
        exact Nat.mul_lt_mul_of_pos_left (by omega) (by positivity)
    rw [hbits]
    omega

/-- Settles O21: `fieldMagnitude` is strictly monotone. -/
theorem finiteWordsOrderedAsMagnitudes : Obligations.FiniteWordsOrderedAsMagnitudes := by
  intro w w' free free' h h'
  rw [decodeWord_mag_toNat free (by omega), decodeWord_mag_toNat free' (by omega), fieldMagnitude_strictMono.lt_iff_lt]

/-- Fields 0 of `E` are those of zeros and subnormals (R35). -/
theorem wordExp_eq_zero_iff (w : Word) : wordExp w = 0 ↔ w.toNat % 32768 < 1024 := by
  simp only [← BitVec.toNat_inj, wordExp_toNat, BitVec.ofNat_eq_ofNat, BitVec.toNat_ofNat]
  omega

/-- The least exponent is that of the subnormals and of the first normals (R61). -/
theorem neg_fourteen_le_unbiasedExp (w : Word) : -14 ≤ unbiasedExp w := by
  have hexp := wordExp_toNat w
  unfold unbiasedExp
  split
  next => rfl
  next h =>
    rw [wordExp_eq_zero_iff] at h
    omega

/-- The significand and exponent of a finite word give its magnitude (R61). -/
theorem fieldMagnitude_eq_significand (w : Word) :
    fieldMagnitude (w.toNat % 32768) = (significand w).toNat * 2 ^ (unbiasedExp w + 14).toNat := by
  have hexp := wordExp_toNat w
  have hfrac := wordFrac_toNat w
  have hlt := (wordFrac w).isLt
  unfold significand unbiasedExp
  split
  next h =>
    have hsmall := (wordExp_eq_zero_iff w).1 h
    rw [fieldMagnitude_of_lt hsmall, BitVec.toNat_append, ← Nat.shiftLeft_add_eq_or_of_lt hlt, hfrac]
    simp
    omega
  next h =>
    have hlarge : 1024 ≤ w.toNat % 32768 := Nat.not_lt.1 fun hlt => h ((wordExp_eq_zero_iff w).2 hlt)
    rw [fieldMagnitude_of_le hlarge, BitVec.toNat_append, ← Nat.shiftLeft_add_eq_or_of_lt hlt, hfrac, hexp]
    congr 2
    · simp
    · omega

/-- Settles O22: the exponent is at least -14, so the magnitude is an integer multiple of 2^-24. -/
theorem decomposedViewOfDecodedValue : Obligations.DecomposedViewOfDecodedValue := by
  intro w free h
  have hfin : magDefined (decodeWord w free).cat = true := by obtain h | h := h <;> rw [h] <;> rfl
  have hmag := (decodeWord_mag_toNat free ((magDefined_iff w free).1 hfin)).trans (fieldMagnitude_eq_significand w)
  refine ⟨hmag.trans (Nat.shiftLeft_eq _ _).symm, ?_⟩
  have hexp : unbiasedExp w - 10 = ((unbiasedExp w + 14).toNat : ℤ) - 24 := by
    have := neg_fourteen_le_unbiasedExp w
    omega
  rw [valueOf_eq_finite h, hmag, decodeWord_sign, hexp, zpow_sub₀ two_ne_zero, zpow_natCast]
  congr 1
  push_cast
  norm_num
  ring

end Machine

end Sys2Proof
end

section
/-! PROOFS. ENCODE16 as one truncation to the grid of the binary16 magnitudes (spec/41_encoder.md R82): the fifteen bits below the sign are
the greatest whose magnitude does not exceed the operand's. -/

namespace Sys2Proof.Machine

/-- The fifteen bits `E || F` below a word's sign. -/
def packedField (p : Packed) : Nat := p.E.toNat * 1024 + p.F.toNat

/-- A word of packed fields in range is its sign and its fifteen bits (R78). -/
theorem packedOut_word_toNat (s : Bit) {p : Packed} (lo : 0 ≤ p.E) (hi : p.E ≤ 31) :
    (packedOut s p).word.toNat = s.toNat * 32768 + packedField p := by
  have hE : (BitVec.ofInt 5 p.E).toNat = p.E.toNat := by rw [BitVec.toNat_ofInt]; omega
  rw [packedOut_word, packWord_toNat, hE, packedField]
  ring

/-- The fifteen bits of a word of packed fields. -/
theorem packedOut_word_mod (s : Bit) {p : Packed} (lo : 0 ≤ p.E) (hi : p.E ≤ 31) :
    (packedOut s p).word.toNat % 32768 = packedField p := by
  have hF := p.F.isLt
  have hfield : packedField p < 32768 := by unfold packedField; omega
  rw [packedOut_word_toNat s lo hi]
  omega

/-- The step of the binary16 grid at `x` is `2^gridShift` of the encoder's units: eleven bits below the top of `x`, and never less than the
2^-24 of the subnormals. -/
def gridShift (fb x : Nat) : Nat := max (bitlen x - 11) (fb - 24)

section
variable (fb x : Nat)

/-- At most eleven bits of a magnitude lie above its grid step. -/
theorem div_gridShift_lt : x / 2 ^ gridShift fb x < 2048 := by
  rw [Nat.div_lt_iff_lt_mul (by positivity), show 2048 = 2 ^ 11 from rfl, ← pow_add]
  exact bitlen_le_iff.1 (by unfold gridShift; omega)

/-- Above the subnormals' grid all eleven bits are there. -/
theorem gridShift_eq_or_le_div : gridShift fb x - (fb - 24) = 0 ∨ 1024 ≤ x / 2 ^ gridShift fb x := by
  by_cases hsub : bitlen x - 11 ≤ fb - 24
  · exact .inl (by unfold gridShift; omega)
  · right
    have h0 : x ≠ 0 := by rintro rfl; simp at hsub
    rw [Nat.le_div_iff_mul_le (by positivity), show 1024 = 2 ^ 10 from rfl, ← pow_add,
      show 10 + gridShift fb x = bitlen x - 1 by unfold gridShift; omega]
    exact two_pow_bitlen_le h0

/-- A grid step is a number of the least ones. -/
theorem two_pow_gridShift : 2 ^ gridShift fb x = 2 ^ (gridShift fb x - (fb - 24)) * 2 ^ (fb - 24) := by
  rw [← pow_add, Nat.sub_add_cancel (show fb - 24 ≤ gridShift fb x from le_max_right _ _)]

end

/-- The fifteen bits of the truncated magnitude: the grid's place above the subnormals', and the number of grid steps. -/
def truncField (fb x : Nat) : Nat := (gridShift fb x - (fb - 24)) * 1024 + x / 2 ^ gridShift fb x

section
variable {iw fb x : Nat}

/-- Its magnitude is the operand's rounded down to the grid. -/
theorem fieldMagnitude_truncField (fb x : Nat) :
    fieldMagnitude (truncField fb x) * 2 ^ (fb - 24) = x / 2 ^ gridShift fb x * 2 ^ gridShift fb x := by
  rw [truncField, fieldMagnitude_grid (gridShift_eq_or_le_div fb x) (div_gridShift_lt fb x).le, mul_assoc, ← two_pow_gridShift]

/-- The next field's magnitude is one grid step above. -/
theorem fieldMagnitude_truncField_succ (fb x : Nat) :
    fieldMagnitude (truncField fb x + 1) * 2 ^ (fb - 24) = (x / 2 ^ gridShift fb x + 1) * 2 ^ gridShift fb x := by
  rw [truncField, Nat.add_assoc, fieldMagnitude_grid ((gridShift_eq_or_le_div fb x).imp_right Nat.le_succ_of_le) (div_gridShift_lt fb x),
    mul_assoc, ← two_pow_gridShift]

/-- A field is at most the truncated one exactly where its magnitude is at most the operand's (R82). -/
theorem le_truncField_iff {h : Nat} : h ≤ truncField fb x ↔ fieldMagnitude h ≤ x / 2 ^ (fb - 24) := by
  rw [Nat.le_div_iff_mul_le (by positivity)]
  constructor
  · intro hle
    calc fieldMagnitude h * 2 ^ (fb - 24) ≤ fieldMagnitude (truncField fb x) * 2 ^ (fb - 24) :=
          Nat.mul_le_mul_right _ (fieldMagnitude_strictMono.monotone hle)
      _ = x / 2 ^ gridShift fb x * 2 ^ gridShift fb x := fieldMagnitude_truncField fb x
      _ ≤ x := Nat.div_mul_le_self _ _
  · intro hmag
    have hnext : x < fieldMagnitude (truncField fb x + 1) * 2 ^ (fb - 24) := by
      rw [fieldMagnitude_truncField_succ]
      exact Nat.lt_mul_of_div_lt (Nat.lt_succ_self _) (by positivity)
    exact Nat.le_of_lt_succ (fieldMagnitude_strictMono.lt_iff_lt.1 (Nat.lt_of_mul_lt_mul_right (hmag.trans_lt hnext)))

/-- Magnitudes of 2^16 and more are those whose truncated field is past the largest finite one. -/
theorem infinity_le_truncField_iff (hfb : 24 ≤ fb) : 0x7C00 ≤ truncField fb x ↔ 2 ^ (fb + 16) ≤ x := by
  have hgrid : fieldMagnitude (30 * 1024 + 1024) = 1024 * 2 ^ 30 := fieldMagnitude_grid (.inr le_rfl) (by norm_num)
  rw [le_truncField_iff, show 0x7C00 = 30 * 1024 + 1024 from rfl, hgrid, Nat.le_div_iff_mul_le (by positivity),
    show fb + 16 = 40 + (fb - 24) by omega, pow_add 2 40]
  norm_num

theorem truncField_lt_infinity (hfb : 24 ≤ fb) (hx : x < 2 ^ (fb + 16)) : truncField fb x < 0x7C00 := by
  rw [← Nat.not_le, infinity_le_truncField_iff hfb]
  exact not_le.2 hx

/-- A nonzero magnitude that does not overflow underflows, or lies in a binade of the normal window. -/
theorem underflow_or_binade (h0 : x ≠ 0) (hx : x < 2 ^ (fb + 16)) : x < 2 ^ (fb - 14) ∨
    ∃ k, fb - 14 ≤ k ∧ k < fb + 16 ∧ 2 ^ k ≤ x ∧ x < 2 ^ (k + 1) := by
  have hpos := bitlen_pos h0
  have hhi := lt_two_pow_bitlen x
  have hbl' : bitlen x ≤ fb + 16 := bitlen_le_iff.2 hx
  by_cases hsub : x < 2 ^ (fb - 14)
  · exact .inl hsub
  · have hbl : ¬ bitlen x ≤ fb - 14 := fun h => hsub (bitlen_le_iff.1 h)
    exact .inr ⟨bitlen x - 1, by omega, by omega, two_pow_bitlen_le h0, by rwa [Nat.sub_add_cancel hpos]⟩

/-- The grid of a normal binade is ten bits below its leading 1. -/
theorem gridShift_of_binade {k : Nat} (hfb : 24 ≤ fb) (hk : fb - 14 ≤ k) (lo : 2 ^ k ≤ x) (hi : x < 2 ^ (k + 1)) :
    gridShift fb x = k - 10 := by
  rw [gridShift, bitlen_eq_of_bounds lo hi]
  omega

theorem gridShift_of_lt (hx : x < 2 ^ (fb - 14)) : gridShift fb x = fb - 24 := by
  have := bitlen_le_iff.2 hx
  unfold gridShift
  omega

/-- Below the normals the field counts the units of 2^-24. -/
theorem truncField_of_lt (hx : x < 2 ^ (fb - 14)) : truncField fb x = x / 2 ^ (fb - 24) := by
  rw [truncField, gridShift_of_lt hx, Nat.sub_self, zero_mul, zero_add]

/-- In a binade of the normal window the field is the biased exponent and the ten bits after the leading 1. -/
theorem truncField_of_binade {k : Nat} (hfb : 24 ≤ fb) (hk : fb - 14 ≤ k) (lo : 2 ^ k ≤ x) (hi : x < 2 ^ (k + 1)) :
    truncField fb x = (k + 15 - fb) * 1024 + (x / 2 ^ (k - 10) - 1024) ∧
      1024 ≤ x / 2 ^ (k - 10) ∧ x / 2 ^ (k - 10) < 2048 := by
  have hlt := div_gridShift_lt fb x
  have hle : 1024 ≤ x / 2 ^ (k - 10) := by
    rw [Nat.le_div_iff_mul_le (by positivity), show 1024 = 2 ^ 10 from rfl, ← pow_add, Nat.add_sub_cancel' (by omega)]
    exact lo
  rw [gridShift_of_binade hfb hk lo hi] at hlt
  rw [truncField, gridShift_of_binade hfb hk lo hi]
  omega

/-- ENCODE16 packs the truncated field, and an infinity where that is past the finite ones (R82). -/
theorem packedField_encodeTrunc (hiw : 17 ≤ iw) (hfb : 24 ≤ fb) (hx : x < 2 ^ (iw + fb)) :
    packedField (encodeTrunc iw fb x) = min (truncField fb x) 0x7C00 := by
  have hinf := infinity_le_truncField_iff (x := x) hfb
  by_cases hover : 2 ^ (fb + 16) ≤ x
  · rw [encodeTrunc_overflow hx hover, min_eq_right (hinf.2 hover)]
    rfl
  rw [min_eq_left (by omega)]
  by_cases h0 : x = 0
  · subst h0
    simp [packedField, packedZero, truncField, gridShift]
  obtain hsub | ⟨k, hk, hk', lo, hi⟩ := underflow_or_binade h0 (Nat.not_le.1 hover)
  · have hlt : x / 2 ^ (fb - 24) < 2 ^ 10 := by
      rw [Nat.div_lt_iff_lt_mul (by positivity), ← pow_add, show 10 + (fb - 24) = fb - 14 by omega]
      exact hsub
    rw [encodeTrunc_underflow hiw hfb h0 hsub, truncField_of_lt hsub, packedField, BitVec.toNat_ofNat, Nat.mod_eq_of_lt hlt]
    simp
  · obtain ⟨hfield, hle, hlt⟩ := truncField_of_binade hfb hk lo hi
    rw [encodeTrunc_normal hiw hfb hk hk' lo hi, hfield, packedField, BitVec.toNat_ofNat, Nat.mod_eq_of_lt (by omega)]
    dsimp only
    omega

/-- The word's fifteen bits. -/
theorem encodeTrunc_word_mod (s : Bit) (hiw : 17 ≤ iw) (hfb : 24 ≤ fb) (hx : x < 2 ^ (iw + fb)) :
    (packedOut s (encodeTrunc iw fb x)).word.toNat % 32768 = min (truncField fb x) 0x7C00 := by
  obtain ⟨lo, hi⟩ := encodeTrunc_E_range iw fb x
  rw [packedOut_word_mod s lo hi, packedField_encodeTrunc hiw hfb hx]

/-- The word: the operand's sign before those bits. -/
theorem encodeTrunc_word_toNat (s : Bit) (hiw : 17 ≤ iw) (hfb : 24 ≤ fb) (hx : x < 2 ^ (iw + fb)) :
    (packedOut s (encodeTrunc iw fb x)).word.toNat = s.toNat * 32768 + min (truncField fb x) 0x7C00 := by
  obtain ⟨lo, hi⟩ := encodeTrunc_E_range iw fb x
  rw [packedOut_word_toNat s lo hi, packedField_encodeTrunc hiw hfb hx]

/-- Overflow in units of 2^-FB (R80). -/
theorem encodeTrunc_ovf_iff_le (hx : x < 2 ^ (iw + fb)) : (encodeTrunc iw fb x).ovf = true ↔ 2 ^ (fb + 16) ≤ x := by
  have he := normalize_e_lt_iff hx (fb + 16)
  have hpos : 0 < 2 ^ (fb + 16) := Nat.two_pow_pos _
  rw [encodeTrunc_ovf_iff]
  omega

/-- Underflow in units of 2^-FB (R80). -/
theorem encodeTrunc_unf_iff_lt (hfb : 14 ≤ fb) (hx : x < 2 ^ (iw + fb)) :
    (encodeTrunc iw fb x).unf = true ↔ x ≠ 0 ∧ x < 2 ^ (fb - 14) := by
  have he := normalize_e_lt_iff hx (fb - 14)
  rw [encodeTrunc_unf_iff]
  omega

end

/-- A magnitude of the grid is truncated to itself. -/
theorem truncField_fieldMagnitude (fb h : Nat) : truncField fb (fieldMagnitude h * 2 ^ (fb - 24)) = h :=
  eq_of_forall_le_iff fun h' => by
    rw [le_truncField_iff, Nat.mul_div_cancel _ (by positivity), fieldMagnitude_strictMono.le_iff_le]

/-- Only the whole units of 2^-24 count, at any bit budget (R83). -/
theorem truncField_congr {fb fb' x x' : Nat} (h : x / 2 ^ (fb - 24) = x' / 2 ^ (fb' - 24)) : truncField fb x = truncField fb' x' :=
  eq_of_forall_le_iff fun h' => by rw [le_truncField_iff, le_truncField_iff, h]

/-- R86 before packing. -/
theorem truncField_mono (fb : Nat) : Monotone (truncField fb) := fun _ _ hle =>
  le_truncField_iff.2 ((le_truncField_iff.1 le_rfl).trans (Nat.div_le_div_right hle))

section
variable (sg : Bit) (ip fp : Part)

/-- The word's fifteen bits on this build. -/
theorem build_word_mod :
    (packedOut sg (encodeTrunc 32 32 (magnitudeBits 32 ip.toNat fp.toNat))).word.toNat % 32768 =
      min (truncField 32 (magnitudeBits 32 ip.toNat fp.toNat)) 0x7C00 :=
  encodeTrunc_word_mod sg (by norm_num) (by norm_num) (magnitudeBits_part_lt ip fp)

/-- Below 2^16 the truncated field is a finite one. -/
theorem build_truncField_lt_infinity {ip fp : Part} (hip : ip.toNat < 2 ^ 16) :
    truncField 32 (magnitudeBits 32 ip.toNat fp.toNat) < 0x7C00 :=
  truncField_lt_infinity (by norm_num) (magnitudeBits_lt (iw := 16) hip fp.isLt)

theorem build_word_toNat :
    (packedOut sg (encodeTrunc 32 32 (magnitudeBits 32 ip.toNat fp.toNat))).word.toNat =
      sg.toNat * 32768 + min (truncField 32 (magnitudeBits 32 ip.toNat fp.toNat)) 0x7C00 :=
  encodeTrunc_word_toNat sg (by norm_num) (by norm_num) (magnitudeBits_part_lt ip fp)

end

/-- Settles O23: the field is the truncated one, range by range. -/
theorem encode16OnEveryOperand : Obligations.Encode16OnEveryOperand := by
  intro sg ip fp st
  refine ⟨_, exec_encode16 sg ip fp st, rfl, rfl, rfl, rfl, ?_, rfl, rfl, rfl, rfl⟩
  intro X h
  have hh : h = min (truncField 32 X) 0x7C00 := build_word_mod sg ip fp
  have hsub (hX : X < 2 ^ 18) : h = X / 2 ^ 8 := by
    have hfield := truncField_of_lt (fb := 32) hX
    omega
  refine ⟨hh ▸ build_word_toNat sg ip fp, fun h0 => ?_, hsub, fun k hk hk' lo hi => ?_, fun hX => ?_⟩
  · rw [hsub (by omega), h0, Nat.zero_div]
  · obtain ⟨hfield, hle, hlt⟩ := truncField_of_binade (fb := 32) (by norm_num) (by omega) lo hi
    omega
  · have hinf := (infinity_le_truncField_iff (fb := 32) (by norm_num)).2 hX
    omega

/-- The other side of `finishEncode_ok`: out of range, the check answers the exponent (R79). -/
theorem finishEncode_of_out_of_range (s : Bit) {p : Packed} (h : p.E < 0 ∨ p.E > 31) : finishEncode s p = .error p.E :=
  if_pos h

/-- Settles O31: both sides of the check, and the operands of ENC on its good side. -/
theorem rangeCheckFiresOutsideFiveBits : Obligations.RangeCheckFiresOutsideFiveBits := by
  refine ⟨fun sg p h => finishEncode_of_out_of_range sg h, fun sg p lo hi => ?_, fun _ _ _ _ _ => rfl,
    fun sg ip fp st => ⟨_, exec_encode16 sg ip fp st, rfl⟩⟩
  refine ⟨packedOut sg p, finishEncode_ok sg lo hi, rfl, ?_, rfl, rfl⟩
  rw [packedOut_word_toNat sg lo hi, packedField]
  push_cast
  omega

/-- Settles O33: the top 24 bits of `fp` are the units of 2^-24, and overflow is a matter of `ip`. -/
theorem lowFractionBitsDoNotMatter : Obligations.LowFractionBitsDoNotMatter := by
  intro sg ip fp fp' st st' hfp
  obtain ⟨t, ht, hout⟩ := exec_encode16_out sg ip fp st
  obtain ⟨t', ht', hout'⟩ := exec_encode16_out sg ip fp' st'
  refine ⟨t, t', ht, ht', BitVec.eq_of_toNat_eq ?_, Bool.eq_iff_iff.2 ?_⟩
  · have hunits : magnitudeBits 32 ip.toNat fp.toNat / 2 ^ (32 - 24) = magnitudeBits 32 ip.toNat fp'.toNat / 2 ^ (32 - 24) := by
      simp only [magnitudeBits]; omega
    rw [hout, hout', build_word_toNat, build_word_toNat, truncField_congr hunits]
  · rw [hout, hout', packedOut_ovf, packedOut_ovf, encodeTrunc_ovf_iff_ip, encodeTrunc_ovf_iff_ip]

/-- Settles O36: truncation to the grid is monotone, and so is the cut at infinity. -/
theorem encodingIsMonotone : Obligations.EncodingIsMonotone := by
  intro sg ip fp ip' fp' st st' hle
  refine ⟨_, _, exec_encode16 sg ip fp st, exec_encode16 sg ip' fp' st', ?_⟩
  rw [State.deliverEnc_enc, State.deliverEnc_enc, build_word_mod, build_word_mod]
  exact min_le_min_right _ (truncField_mono 32 hle)

/-- An operand of a given magnitude. -/
theorem exists_operand {x : Nat} (hx : x < 2 ^ 64) : ∃ ip fp : Part, magnitudeBits 32 ip.toNat fp.toNat = x := by
  refine ⟨BitVec.ofNat 32 (x / 2 ^ 32), BitVec.ofNat 32 x, ?_⟩
  simp only [magnitudeBits, BitVec.toNat_ofNat]
  omega

/-- The infinity's field stands for 2^16, as the word after the largest finite one would. -/
theorem fieldMagnitude_infinity : fieldMagnitude 0x7C00 = 2 ^ 40 := by
  rw [fieldMagnitude_of_le (by norm_num)]
  norm_num

/-- Settles O37: a word that is not NaN is its own magnitude truncated, and no field is past the infinity's. -/
theorem producedWordsAreTheNonNanWords : Obligations.ProducedWordsAreTheNonNanWords := by
  intro w st
  rw [ne_eq, classify_eq_nan_iff, Nat.not_lt]
  constructor
  · intro hle
    have hmag : fieldMagnitude (w.toNat % 32768) ≤ 2 ^ 40 :=
      fieldMagnitude_infinity ▸ fieldMagnitude_strictMono.monotone hle
    obtain ⟨ip, fp, hX⟩ := exists_operand (x := fieldMagnitude (w.toNat % 32768) * 2 ^ (32 - 24)) (by omega)
    refine ⟨wordSign w, ip, fp, _, exec_encode16 _ ip fp st, BitVec.eq_of_toNat_eq ?_⟩
    rw [State.deliverEnc_enc, build_word_toNat, hX, truncField_fieldMagnitude, min_eq_left hle]
    exact (toNat_eq_sign_add w).symm
  · rintro ⟨sg, ip, fp, t, hexec, rfl⟩
    cases (exec_encode16 sg ip fp st).symm.trans hexec
    rw [State.deliverEnc_enc, build_word_mod]
    exact min_le_right _ _

/-- Settles O38: the sign takes part in nothing but bit 15. -/
theorem negatedOperandFlipsSignBit : Obligations.NegatedOperandFlipsSignBit := by
  intro ip fp st st'
  obtain ⟨t, ht, hout⟩ := exec_encode16_out 0 ip fp st
  obtain ⟨t', ht', hout'⟩ := exec_encode16_out 1 ip fp st'
  refine ⟨t, t', ht, ht', ?_⟩
  rw [hout, hout', build_word_toNat, build_word_toNat]
  exact ⟨by simp [add_comm], rfl, rfl, rfl⟩

/-- Settles O45: `le_truncField_iff` at FB = 32. -/
theorem encodesLargestNotExceeding : Obligations.EncodesLargestNotExceeding := by
  intro sg ip fp st hip
  refine ⟨_, exec_encode16 sg ip fp st, ?_⟩
  have hlt := build_truncField_lt_infinity (fp := fp) hip
  rw [State.deliverEnc_enc, build_word_mod, min_eq_left hlt.le]
  refine ⟨by omega, fun h free hh => ?_⟩
  have hmod : (BitVec.ofNat 16 h).toNat % 32768 = h := by rw [BitVec.toNat_ofNat]; omega
  rw [decodeWord_mag_toNat free (by omega), hmod, le_truncField_iff, Nat.le_div_iff_mul_le (by norm_num)]
  rfl

end Sys2Proof.Machine
end

section
/-! PROOFS. Encoder and decoder together at the ports (spec/43_composition_laws.md R94, R102), and the seven steps on digits as the combined
form (spec/41_encoder.md R67 to R81). -/

namespace Sys2Proof.Machine

/-- The operand of a decoder result is its magnitude in the encoder's units (R94). -/
theorem decode_operandOf (o : DecOut) : ∃ ip fp : Part, decode (operandOf o) = .encode16 o.sign ip fp ∧
    magnitudeBits 32 ip.toNat fp.toNat = o.mag.toNat * 2 ^ 8 := by
  have hlt := o.mag.isLt
  refine ⟨_, _, rfl, ?_⟩
  rw [BitVec.toNat_setWidth, BitVec.toNat_append, BitVec.extractLsb'_toNat, BitVec.extractLsb'_toNat, BitVec.toNat_ofNat,
    Nat.zero_mod, Nat.or_zero, Nat.shiftLeft_eq, Nat.shiftRight_eq_div_pow, Nat.shiftRight_eq_div_pow, magnitudeBits]
  omega

/-- Settles O41: the magnitude of a finite word is on the grid, so truncation gives the word's own field back. -/
theorem finiteWordsRoundTrip : Obligations.FiniteWordsRoundTrip := by
  intro w free st h
  have hfin := (magDefined_iff w free).1 h
  obtain ⟨ip, fp, hdec, hmag⟩ := decode_operandOf (decodeWord w free)
  rw [decodeWord_mag_toNat free hfin] at hmag
  have hfield : truncField 32 (magnitudeBits 32 ip.toNat fp.toNat) = w.toNat % 32768 := by
    rw [hmag]; exact truncField_fieldMagnitude 32 _
  have hX := magnitudeBits_part_lt ip fp
  have hinf := infinity_le_truncField_iff (fb := 32) (x := magnitudeBits 32 ip.toNat fp.toNat) (by norm_num)
  have hsmall := fieldMagnitude_lt_iff (h := w.toNat % 32768)
  have hnonzero : fieldMagnitude (w.toNat % 32768) = 0 ↔ w.toNat % 32768 = 0 := by
    have hzero := fieldMagnitude_strictMono.injective.eq_iff (a := w.toNat % 32768) (b := 0)
    rwa [fieldMagnitude_of_lt (h := 0) (by norm_num)] at hzero
  obtain ⟨t, ht, hout⟩ := exec_encode16_out (wordSign w) ip fp st
  refine ⟨t, by rw [hdec]; exact ht, ?_⟩
  rw [hout]
  refine ⟨BitVec.eq_of_toNat_eq ?_, Bool.eq_false_iff.2 fun hovf => ?_, rfl, ?_⟩
  · rw [build_word_toNat, hfield, min_eq_left hfin.le]
    exact (toNat_eq_sign_add w).symm
  · rw [packedOut_ovf, encodeTrunc_ovf_iff_le hX] at hovf
    omega
  · rw [packedOut_unf, encodeTrunc_unf_iff_lt (by norm_num) hX, decodeWord_cat_eq_classify, classify_eq_subnormal_iff, hmag]
    omega

/-- The truncated field's magnitude as a real multiple of the grid step at `x` (R102). -/
theorem fieldMagnitude_truncField_eq_floor (x : Nat) :
    (fieldMagnitude (truncField 32 x) : ℚ) / 2 ^ 24 =
      ⌊(x : ℚ) / 2 ^ 32 / 2 ^ ((gridShift 32 x : ℤ) - 32)⌋ * 2 ^ ((gridShift 32 x : ℤ) - 32) := by
  have hgrid : (fieldMagnitude (truncField 32 x) : ℚ) * 2 ^ 8 = (x / 2 ^ gridShift 32 x : ℕ) * 2 ^ gridShift 32 x := by
    exact_mod_cast fieldMagnitude_truncField 32 x
  have hsteps : (x : ℚ) / 2 ^ 32 / 2 ^ ((gridShift 32 x : ℤ) - 32) = (x : ℚ) / (2 ^ gridShift 32 x : ℕ) := by
    rw [zpow_sub₀ two_ne_zero, zpow_natCast, zpow_ofNat, div_div_div_cancel_right₀ (by positivity)]
    push_cast
    rfl
  rw [hsteps, Rat.floor_natCast_div_natCast, ← Int.natCast_div, zpow_sub₀ two_ne_zero, zpow_natCast, zpow_ofNat, Int.cast_natCast,
    mul_div_assoc', ← hgrid]
  ring

/-- A magnitude below a power of two, as a real and in units of 2^-32. -/
theorem div_lt_two_zpow_iff (x k : Nat) : (x : ℚ) / 2 ^ 32 < 2 ^ ((k : ℤ) - 32) ↔ x < 2 ^ k := by
  rw [zpow_sub₀ two_ne_zero, zpow_natCast, zpow_ofNat, div_lt_div_iff_of_pos_right (by positivity)]
  exact_mod_cast Iff.rfl

/-- Settles O44: the grid step is 2^-24 below the normals and ten places below the leading 1 in each binade. -/
theorem decodeAfterEncodeTruncates : Obligations.DecodeAfterEncodeTruncates := by
  intro sg ip fp free st hip
  obtain ⟨t, ht, hout⟩ := exec_encode16_out sg ip fp st
  refine ⟨t, ht, ?_⟩
  rw [hout]
  intro a d
  set X := magnitudeBits 32 ip.toNat fp.toNat
  have ha : a = (X : ℚ) / 2 ^ 32 := magnitude_eq_div 32 ip.toNat fp.toNat
  have hlt : truncField 32 X < 0x7C00 := build_truncField_lt_infinity hip
  have hfield := build_word_mod sg ip fp
  rw [min_eq_left hlt.le] at hfield
  have hmag : d.mag.toNat = fieldMagnitude (truncField 32 X) := by
    rw [show d.mag.toNat = _ from decodeWord_mag_toNat free (by omega), hfield]
  rw [hmag, ha]
  refine ⟨wordSign_packWord _ _ _, (magDefined_iff _ free).2 (by omega), fun hsub => ?_, fun e lo hi hle hlt' => ?_, ?_⟩
  · have hXlt : X < 2 ^ (32 - 14) := (div_lt_two_zpow_iff X 18).1 (by simpa using hsub)
    rw [fieldMagnitude_truncField_eq_floor, gridShift_of_lt hXlt]
    norm_num
  · obtain ⟨k, hk⟩ := Int.eq_ofNat_of_zero_le (show 0 ≤ e + 32 by omega)
    obtain rfl : e = (k : ℤ) - 32 := by omega
    have hXlo : 2 ^ k ≤ X := Nat.not_lt.1 fun h => (not_le.2 ((div_lt_two_zpow_iff X k).2 h)) hle
    have hXhi : X < 2 ^ (k + 1) := (div_lt_two_zpow_iff X (k + 1)).1 (by convert hlt' using 2; push_cast; ring)
    have hexp : ((k - 10 : ℕ) : ℤ) - 32 = (k : ℤ) - 32 - 10 := by omega
    rw [fieldMagnitude_truncField_eq_floor, gridShift_of_binade (by norm_num) (by omega) hXlo hXhi, hexp]
  · have hunits : fieldMagnitude (truncField 32 X) * 2 ^ 8 ≤ X :=
      (Nat.le_div_iff_mul_le (by norm_num)).1 (le_truncField_iff.1 le_rfl)
    have hunits' : (fieldMagnitude (truncField 32 X) : ℚ) * 2 ^ 8 ≤ X := by exact_mod_cast hunits
    rw [div_le_div_iff₀ (by positivity) (by positivity)]
    linarith

/-- No digit is 1 in the zero operand (R72). -/
theorem leadingOne_zero (iw fb : Nat) : leadingOne (intDigits iw 0) (fracDigits fb 0) = none := by
  have hint : intDigits iw 0 = [] := by cases iw <;> rfl
  have hfrac : (fracDigits fb 0).findIdx? (fun b => b) = none := by simp [fracDigits]
  rw [hint, leadingOne, hfrac]

/-- The underflow loop on the ten digits of a significand leaves the combined form's fraction (R75). -/
theorem digitsToNat_shiftLoop_take10 (ds : List Bool) {n : Normalized} (h : n.e < -14) (hsig : digitsToNat (take10 ds) = n.sig10.toNat) :
    BitVec.ofNat 10 (digitsToNat (shiftLoop (-14 - n.e).toNat true (take10 ds))) = subnormalFraction n := by
  obtain ⟨k, hk⟩ := Nat.exists_eq_add_of_le' (show 1 ≤ (-14 - n.e).toNat by omega)
  have hne : take10 ds ≠ [] := List.ne_nil_of_length_eq_add_one (take10_length ds)
  apply BitVec.eq_of_toNat_eq
  rw [BitVec.toNat_ofNat, ← Nat.mod_eq_of_lt (subnormalFraction n).isLt, subnormalFraction_toNat h, hk,
    digitsToNat_shiftLoop k true hne, take10_length, hsig]
  rfl

/-- The seven steps leave the combined form's fields for packing. -/
theorem packedBySteps_eq_encodeTrunc {iw fb ip fp : Nat} (hw : 11 ≤ iw + fb) (hi : ip < 2 ^ iw) (hf : fp < 2 ^ fb) :
    packedBySteps iw fb ip fp = encodeTrunc iw fb (magnitudeBits fb ip fp) := by
  by_cases h0 : magnitudeBits fb ip fp = 0
  · obtain ⟨rfl, rfl⟩ : ip = 0 ∧ fp = 0 := by simpa [magnitudeBits] using h0
    rw [h0, encodeTrunc_zero, packedBySteps, leadingOne_zero]
  · have hX := magnitudeBits_lt hi hf
    obtain ⟨sigseq, hlead, hdigits⟩ := leadingOne_digits hi hf h0
    have he : (sigseq.length : ℤ) - fb = (normalize iw fb (magnitudeBits fb ip fp)).e := by
      rw [normalize_e hX, bitlen_of_digits hdigits]
      push_cast
      ring
    have hsig := digitsToNat_take10_eq_sig10 hX hw hdigits
    rw [encodeTrunc_of_ne_zero iw fb h0, packedBySteps, hlead, he]
    dsimp only
    unfold classifyRange
    split
    next hunder => rw [digitsToNat_shiftLoop_take10 sigseq hunder hsig]
    next => rw [hsig, BitVec.ofNat_toNat, BitVec.setWidth_eq]

/-- Settles O30: before the range check, which both forms share. -/
theorem sevenStepsAreCombinedForm : Obligations.SevenStepsAreCombinedForm := by
  intro iw fb sg ip fp hiw hfb hi hf
  rw [encodeBySteps, packedBySteps_eq_encodeTrunc (by omega) hi hf]
  rfl

end Sys2Proof.Machine
end

section
/-! PROOFS. The presentation of a real at ENC's ports (spec/30_encoding.md R40, R41) and the word it is encoded as, which no bit budget and
no integer width of this hardware's size or more changes (spec/41_encoder.md R83, R84). -/

namespace Sys2Proof.Machine

section
variable {iw fb anyFp : Nat} {v : ℝ}

/-- The presentation of a real whose integer part fits (R40). -/
theorem presentFinite_fits (fb anyFp : Nat) (h : |v| < 2 ^ iw) :
    presentFinite iw fb anyFp v = ⟨if v < 0 then 1 else 0, ⌊|v|⌋₊, ⌊(|v| - ⌊|v|⌋₊) * 2 ^ fb⌋₊⟩ := by
  have hfits : ⌊|v|⌋₊ < 2 ^ iw := (Nat.floor_lt (abs_nonneg v)).2 (by exact_mod_cast h)
  simp [presentFinite, Int.floor_toNat, hfits]

/-- The presentation of a real whose integer part does not fit (R41). -/
theorem presentFinite_saturates (fb anyFp : Nat) (h : 2 ^ iw ≤ |v|) :
    presentFinite iw fb anyFp v = ⟨if v < 0 then 1 else 0, 2 ^ iw - 1, anyFp⟩ := by
  have hfits : ¬ ⌊|v|⌋₊ < 2 ^ iw := fun hlt => not_lt.2 h (by exact_mod_cast (Nat.floor_lt (abs_nonneg v)).1 hlt)
  simp [presentFinite, Int.floor_toNat, hfits]

/-- A fractional part in units of 2^-FB needs FB bits (R40). -/
theorem floor_fract_lt (fb : Nat) (v : ℝ) : ⌊(|v| - ⌊|v|⌋₊) * 2 ^ fb⌋₊ < 2 ^ fb := by
  have hfract : 0 ≤ |v| - ⌊|v|⌋₊ := sub_nonneg.2 (Nat.floor_le (abs_nonneg v))
  have hlt : |v| - ⌊|v|⌋₊ < 1 := by linarith [Nat.lt_floor_add_one |v|]
  rw [Nat.floor_lt (by positivity)]
  push_cast
  exact mul_lt_of_lt_one_left (by positivity) hlt

/-- A presentation is an operand of ENC: both parts are in their widths (R38, R40, R41). -/
theorem presentFinite_bounds (h : |v| < 2 ^ iw ∨ anyFp < 2 ^ fb) :
    (presentFinite iw fb anyFp v).ip < 2 ^ iw ∧ (presentFinite iw fb anyFp v).fp < 2 ^ fb := by
  by_cases hfits : |v| < 2 ^ iw
  · rw [presentFinite_fits fb anyFp hfits]
    exact ⟨(Nat.floor_lt (abs_nonneg v)).2 (by exact_mod_cast hfits), floor_fract_lt fb v⟩
  · rw [presentFinite_saturates fb anyFp (not_lt.1 hfits)]
    exact ⟨Nat.sub_one_lt (by positivity), h.resolve_left hfits⟩

end

/-- The magnitude that a presentation puts at the ports, in units of 2^-FB. -/
noncomputable def presentedBits (iw fb anyFp : Nat) (v : ℝ) : Nat :=
  magnitudeBits fb (presentFinite iw fb anyFp v).ip (presentFinite iw fb anyFp v).fp

section
variable {iw fb anyFp : Nat} {v : ℝ}

theorem presentedBits_fits (fb anyFp : Nat) (h : |v| < 2 ^ iw) : presentedBits iw fb anyFp v = ⌊|v| * 2 ^ fb⌋₊ :=
  magnitudeBits_presentFinite fb anyFp h

theorem presentedBits_lt (h : |v| < 2 ^ iw ∨ anyFp < 2 ^ fb) : presentedBits iw fb anyFp v < 2 ^ (iw + fb) :=
  have ⟨hip, hfp⟩ := presentFinite_bounds h
  magnitudeBits_lt hip hfp

/-- A saturated presentation overflows (R41, R84). -/
theorem le_presentedBits_of_saturates (fb anyFp : Nat) (hiw : 17 ≤ iw) (h : 2 ^ iw ≤ |v|) :
    2 ^ (fb + 16) ≤ presentedBits iw fb anyFp v := by
  have hpow : 2 ^ 17 ≤ 2 ^ iw := Nat.pow_le_pow_right two_pos hiw
  rw [presentedBits, presentFinite_saturates fb anyFp h, magnitudeBits, pow_add, mul_comm]
  exact (Nat.mul_le_mul_right _ (show 2 ^ 16 ≤ 2 ^ iw - 1 by omega)).trans (Nat.le_add_right _ _)

/-- A presentation overflows with the real itself (R76, R84). -/
theorem le_presentedBits_iff (fb anyFp : Nat) (hiw : 17 ≤ iw) : 2 ^ (fb + 16) ≤ presentedBits iw fb anyFp v ↔ 2 ^ 16 ≤ |v| := by
  by_cases hfits : |v| < 2 ^ iw
  · rw [presentedBits_fits fb anyFp hfits, Nat.le_floor_iff (by positivity), pow_add, mul_comm, Nat.cast_mul, Nat.cast_pow, Nat.cast_pow,
      Nat.cast_ofNat]
    exact mul_le_mul_iff_left₀ (show (0 : ℝ) < 2 ^ fb by positivity)
  · refine iff_of_true (le_presentedBits_of_saturates fb anyFp hiw (not_lt.1 hfits)) (le_trans ?_ (not_lt.1 hfits))
    exact pow_le_pow_right₀ one_le_two (by omega)

/-- A presentation underflows with the real itself, where the real is not below the port's unit (R80). -/
theorem presentedBits_underflow_iff (fb anyFp : Nat) (hiw : 17 ≤ iw) :
    (presentedBits iw fb anyFp v ≠ 0 ∧ presentedBits iw fb anyFp v < 2 ^ (fb - 14)) ↔
      1 ≤ |v| * 2 ^ fb ∧ |v| * 2 ^ fb < 2 ^ (fb - 14) := by
  by_cases hfits : |v| < 2 ^ iw
  · rw [presentedBits_fits fb anyFp hfits, Nat.floor_lt (by positivity), ← Nat.one_le_iff_ne_zero, Nat.le_floor_iff (by positivity)]
    push_cast
    rfl
  · have hover := le_presentedBits_of_saturates fb anyFp hiw (not_lt.1 hfits)
    have hreal : 2 ^ 16 ≤ |v| := (le_presentedBits_iff fb anyFp hiw).1 hover
    have hpow : 2 ^ (fb - 14) ≤ 2 ^ (fb + 16) := Nat.pow_le_pow_right two_pos (by omega)
    refine iff_of_false (fun ⟨_, hlt⟩ => by omega) fun ⟨_, hlt⟩ => not_le.2 hlt ?_
    calc (2 : ℝ) ^ (fb - 14) ≤ 2 ^ (fb + 16) := by exact_mod_cast hpow
      _ = 2 ^ 16 * 2 ^ fb := by rw [pow_add, mul_comm]
      _ ≤ |v| * 2 ^ fb := by gcongr

end

/-- The fifteen bits below the sign that a real is encoded as: its magnitude truncated to the grid, in units of 2^-24. -/
noncomputable def realField (v : ℝ) : Nat := min (truncField 24 ⌊|v| * 2 ^ 24⌋₊) 0x7C00

/-- Its characterization by magnitudes (R82). -/
theorem le_realField_iff {h : Nat} (hle : h ≤ 0x7C00) (v : ℝ) : h ≤ realField v ↔ (fieldMagnitude h : ℝ) ≤ |v| * 2 ^ 24 := by
  rw [realField, le_min_iff, and_iff_left hle, le_truncField_iff, Nat.sub_self, pow_zero, Nat.div_one, Nat.le_floor_iff (by positivity)]

section
variable {iw fb anyFp : Nat} {v : ℝ}

/-- The truncated field of a presentation does not depend on the widths (R83, R84). -/
theorem truncField_presentedBits (anyFp : Nat) (hiw : 17 ≤ iw) (hfb : 24 ≤ fb) :
    min (truncField fb (presentedBits iw fb anyFp v)) 0x7C00 = realField v := by
  by_cases hfits : |v| < 2 ^ iw
  · have hunits : |v| * 2 ^ 24 = |v| * 2 ^ fb / (2 ^ (fb - 24) : ℕ) := by
      rw [eq_div_iff (by positivity), mul_assoc]
      push_cast
      rw [← pow_add, Nat.add_sub_cancel' hfb]
    have hfloor : ⌊|v| * 2 ^ fb⌋₊ / 2 ^ (fb - 24) = ⌊|v| * 2 ^ 24⌋₊ / 2 ^ (24 - 24) := by
      rw [hunits, Nat.floor_div_natCast, Nat.sub_self, pow_zero, Nat.div_one]
    rw [presentedBits_fits fb anyFp hfits, realField, truncField_congr hfloor]
  · have hover := le_presentedBits_of_saturates fb anyFp hiw (not_lt.1 hfits)
    have hreal := (le_presentedBits_iff fb anyFp hiw).1 hover
    have hinf : 0x7C00 ≤ realField v := by
      rw [le_realField_iff le_rfl, fieldMagnitude_infinity]
      push_cast
      linarith
    rw [min_eq_right ((infinity_le_truncField_iff hfb).2 hover)]
    exact le_antisymm hinf (min_le_right _ _)

end

/-- The outputs of `encode(v)` under TRUNC. -/
noncomputable def realOut (iw fb anyFp : Nat) (v : ℝ) : EncOut :=
  packedOut (if v < 0 then 1 else 0) (encodeTrunc iw fb (presentedBits iw fb anyFp v))

theorem sign_toNat (v : ℝ) : (if v < 0 then 1 else 0 : Bit).toNat = if v < 0 then 1 else 0 := by
  split_ifs <;> rfl

theorem encodeValue_eq_realOut (iw fb anyFp : Nat) (v : ℝ) :
    encodeValue .trunc iw fb anyFp (.finite v) = .next (realOut iw fb anyFp v) := by
  rw [encodeValue_trunc_finite, presentFinite_s]
  rfl

section
variable {iw fb anyFp : Nat} {v : ℝ}

theorem realOut_word_toNat (hiw : 17 ≤ iw) (hfb : 24 ≤ fb) (h : |v| < 2 ^ iw ∨ anyFp < 2 ^ fb) :
    (realOut iw fb anyFp v).word.toNat = (if v < 0 then 1 else 0) * 32768 + realField v := by
  rw [realOut, encodeTrunc_word_toNat _ hiw hfb (presentedBits_lt h), truncField_presentedBits anyFp hiw hfb, sign_toNat]

theorem realOut_word_mod (hiw : 17 ≤ iw) (hfb : 24 ≤ fb) (h : |v| < 2 ^ iw ∨ anyFp < 2 ^ fb) :
    (realOut iw fb anyFp v).word.toNat % 32768 = realField v := by
  rw [realOut, encodeTrunc_word_mod _ hiw hfb (presentedBits_lt h), truncField_presentedBits anyFp hiw hfb]

theorem realOut_ovf_iff (hiw : 17 ≤ iw) (h : |v| < 2 ^ iw ∨ anyFp < 2 ^ fb) :
    (realOut iw fb anyFp v).ovf = true ↔ 2 ^ 16 ≤ |v| := by
  rw [realOut, packedOut_ovf, encodeTrunc_ovf_iff_le (presentedBits_lt h), le_presentedBits_iff fb anyFp hiw]

theorem realOut_unf_iff (hiw : 17 ≤ iw) (hfb : 14 ≤ fb) (h : |v| < 2 ^ iw ∨ anyFp < 2 ^ fb) :
    (realOut iw fb anyFp v).unf = true ↔ 1 ≤ |v| * 2 ^ fb ∧ |v| * 2 ^ fb < 2 ^ (fb - 14) := by
  rw [realOut, packedOut_unf, encodeTrunc_unf_iff_lt hfb (presentedBits_lt h), presentedBits_underflow_iff fb anyFp hiw]

end

/-- Settles O34: word and overflow are those of the real's own magnitude. -/
theorem bitBudgetDoesNotMatter : Obligations.BitBudgetDoesNotMatter := by
  intro v iw fb fb' anyFp anyFp' hiw hfb hfb' hany hany'
  refine ⟨_, _, encodeValue_eq_realOut iw fb anyFp v, encodeValue_eq_realOut iw fb' anyFp' v, BitVec.eq_of_toNat_eq ?_,
    Bool.eq_iff_iff.2 ?_⟩
  · rw [realOut_word_toNat hiw hfb (.inr hany), realOut_word_toNat hiw hfb' (.inr hany')]
  · rw [realOut_ovf_iff hiw (.inr hany), realOut_ovf_iff hiw (.inr hany')]

/-- Results are equal when their words and flags are, the range error being none. -/
theorem packedOut_congr {s : Bit} {p p' : Packed} (hword : (packedOut s p).word = (packedOut s p').word)
    (hovf : (packedOut s p).ovf = (packedOut s p').ovf) (hunf : (packedOut s p).unf = (packedOut s p').unf) :
    packedOut s p = packedOut s p' := by
  rw [packedOut, packedOut, EncOut.mk.injEq]
  exact ⟨hword, hovf, hunf, rfl⟩

/-- Settles O35: likewise, with the underflow, which the fraction width alone decides. -/
theorem integerWidthDoesNotMatter : Obligations.IntegerWidthDoesNotMatter := by
  intro v iw iw' fb anyFp anyFp' hiw hiw' hfb hany hany'
  have hout : realOut iw' fb anyFp' v = realOut iw fb anyFp v := by
    refine packedOut_congr (BitVec.eq_of_toNat_eq ?_) (Bool.eq_iff_iff.2 ?_) (Bool.eq_iff_iff.2 ?_)
    · exact (realOut_word_toNat hiw' (by omega) (.inr hany')).trans (realOut_word_toNat hiw (by omega) (.inr hany)).symm
    · exact (realOut_ovf_iff hiw' (.inr hany')).trans (realOut_ovf_iff hiw (.inr hany)).symm
    · exact (realOut_unf_iff hiw' (by omega) (.inr hany')).trans (realOut_unf_iff hiw (by omega) (.inr hany)).symm
  exact ⟨_, encodeValue_eq_realOut iw fb anyFp v, hout ▸ encodeValue_eq_realOut iw' fb anyFp' v⟩

/-- The least subnormal and the infinity as fields, against the real (R96, R97). -/
theorem realField_eq_zero_iff (v : ℝ) : realField v = 0 ↔ |v| < 2 ^ (-24 : ℤ) := by
  have hone := le_realField_iff (h := 1) (by norm_num) v
  rw [fieldMagnitude_of_lt (by norm_num), Nat.cast_one] at hone
  rw [← Nat.lt_one_iff, ← not_le, hone, not_le, zpow_neg, zpow_ofNat, ← one_div, lt_div_iff₀ (by positivity)]

theorem realField_eq_infinity_iff (v : ℝ) : realField v = 0x7C00 ↔ 65536 ≤ |v| := by
  have hinf := le_realField_iff le_rfl v
  rw [fieldMagnitude_infinity] at hinf
  have hle : realField v ≤ 0x7C00 := min_le_right _ _
  rw [le_antisymm_iff, and_iff_right hle, hinf]
  push_cast
  constructor <;> intro h <;> linarith

/-- Settles O39: at the port by the first and the last field, for reals by the same fields. -/
theorem zeroAndOverflowBoundaries : Obligations.ZeroAndOverflowBoundaries := by
  refine ⟨fun sg ip fp st => ?_, fun v anyFp hany => ⟨_, encodeValue_eq_realOut 32 32 anyFp v, ?_, ?_⟩⟩
  · obtain ⟨t, ht, hout⟩ := exec_encode16_out sg ip fp st
    have hfp := fp.isLt
    have hinf := infinity_le_truncField_iff (fb := 32) (x := magnitudeBits 32 ip.toNat fp.toNat) (by norm_num)
    have hone : 1 ≤ truncField 32 (magnitudeBits 32 ip.toNat fp.toNat) ↔ 1 ≤ magnitudeBits 32 ip.toNat fp.toNat / 2 ^ 8 := by
      rw [le_truncField_iff, fieldMagnitude_of_lt (by norm_num)]
    refine ⟨t, ht, ?_⟩
    rw [hout, classify_eq_infinity_iff, build_word_mod]
    simp only [magnitudeBits] at *
    omega
  · rw [classify_eq_zero_iff, realOut_word_mod (by norm_num) (by norm_num) (.inr hany), realField_eq_zero_iff]
  · rw [classify_eq_infinity_iff, realOut_word_mod (by norm_num) (by norm_num) (.inr hany), realField_eq_infinity_iff]

/-- Settles O40: the field is at least 1 and less than 2. -/
theorem smallestSubnormalInterval : Obligations.SmallestSubnormalInterval := by
  intro v anyFp free lo hi
  have hunit : (2 : ℝ) ^ (-24 : ℤ) = 1 / 2 ^ 24 := by norm_num
  have hunit' : (2 : ℝ) ^ (-23 : ℤ) = 2 / 2 ^ 24 := by norm_num
  rw [hunit, div_le_iff₀ (by positivity)] at lo
  rw [hunit', lt_div_iff₀ (by positivity)] at hi
  have hfits : |v| < 2 ^ 32 := by linarith [abs_nonneg v]
  have hone := le_realField_iff (h := 1) (by norm_num) v
  have htwo := le_realField_iff (h := 2) (by norm_num) v
  rw [fieldMagnitude_of_lt (by norm_num)] at hone htwo
  have hfield : realField v = 1 :=
    le_antisymm (Nat.lt_succ_iff.1 (not_le.1 fun h => not_le.2 hi (by exact_mod_cast htwo.1 h))) (hone.2 (by exact_mod_cast lo))
  have hword := realOut_word_toNat (iw := 32) (fb := 32) (anyFp := anyFp) (by norm_num) (by norm_num) (.inl hfits)
  rw [hfield] at hword
  have hpack : (realOut 32 32 anyFp v).word = packWord (if v < 0 then 1 else 0) 0 1 := BitVec.eq_of_toNat_eq (by
    rw [hword, packWord_toNat, sign_toNat, show (0 : BiasedExp).toNat = 0 from rfl, show (1 : Fraction).toNat = 1 from rfl]
    norm_num)
  refine ⟨_, encodeValue_eq_realOut 32 32 anyFp v, ?_, ?_, ?_⟩
  · rw [hpack]; split_ifs <;> rfl
  · rw [realOut_unf_iff (by norm_num) (by norm_num) (.inl hfits)]
    norm_num at lo hi ⊢
    constructor <;> linarith
  · rw [hpack, decodeWord_subnormal _ _ (by decide), valueOf_eq_finite (.inl rfl), subnormalMagnitude_toNat, hunit]
    congr 1
    split_ifs <;> simp [neg_div]

/-- The digits below place `n` do not see a 1 at place `n`. -/
theorem fracDigits_two_pow_add (n m : Nat) : fracDigits n (2 ^ n + m) = fracDigits n m := by
  unfold fracDigits
  refine List.map_congr_left fun j hj => Nat.testBit_two_pow_add_gt ?_ m
  have := List.mem_range.1 hj
  omega

/-- The digits of a number with one more place: 1 and the digits of what is above `2^n`, or 0 and its digits. -/
theorem fracDigits_succ_two_pow_add {n m : Nat} (h : m < 2 ^ n) : fracDigits (n + 1) (2 ^ n + m) = true :: fracDigits n m := by
  rw [fracDigits_succ, fracDigits_two_pow_add, Nat.testBit_two_pow_add_eq, Nat.testBit_lt_two_pow h]
  rfl

theorem fracDigits_succ_of_lt {n m : Nat} (h : m < 2 ^ n) : fracDigits (n + 1) m = false :: fracDigits n m := by
  rw [fracDigits_succ, Nat.testBit_lt_two_pow h]

/-- The doubling loop is the digits of the number rounded down (R40, R69): a double that reaches 1 is a digit 1 at the highest place. -/
theorem doublingDigits_eq_fracDigits (fb : Nat) {f : ℝ} (h0 : 0 ≤ f) (h1 : f < 1) :
    doublingDigits fb f = fracDigits fb ⌊f * 2 ^ fb⌋₊ := by
  induction fb generalizing f with
  | zero => rfl
  | succ n ih =>
    have hlt {g : ℝ} (hg : 0 ≤ g) (hg' : g < 1) : ⌊g * 2 ^ n⌋₊ < 2 ^ n := by
      rw [Nat.floor_lt (by positivity)]
      push_cast
      exact mul_lt_of_lt_one_left (by positivity) hg'
    rw [doublingDigits]
    split
    next hone =>
      have hsplit : f * 2 ^ (n + 1) = (2 * f - 1) * 2 ^ n + (2 ^ n : ℕ) := by push_cast; ring
      have hpos : 0 ≤ 2 * f - 1 := by linarith
      rw [hsplit, Nat.floor_add_natCast (by positivity), Nat.add_comm _ (2 ^ n), fracDigits_succ_two_pow_add (hlt hpos (by linarith)),
        ih hpos (by linarith)]
    next hone =>
      have hdouble : f * 2 ^ (n + 1) = 2 * f * 2 ^ n := by ring
      rw [hdouble, fracDigits_succ_of_lt (hlt (by linarith) (by linarith)), ih (by linarith) (by linarith)]

/-- Settles O47: the loop by its digits, the presentation by its two cases. -/
theorem presentationIsTheDoublingLoop : Obligations.PresentationIsTheDoublingLoop := by
  refine ⟨fun f fb h0 h1 => ?_, fun v iw fb anyFp h => ?_, fun v iw fb anyFp h => ?_⟩
  · rw [Int.floor_toNat, doublingDigits_eq_fracDigits fb h0 h1]
  · have hfract : 0 ≤ |v| - ⌊|v|⌋₊ := sub_nonneg.2 (Nat.floor_le (abs_nonneg v))
    have hip : ((⌊|v|⌋₊ : ℕ) : ℤ) = ⌊|v|⌋ := Int.natCast_floor_eq_floor (abs_nonneg v)
    have hip' : ((⌊|v|⌋₊ : ℕ) : ℝ) = (⌊|v|⌋ : ℝ) := by exact_mod_cast hip
    rw [presentFinite_fits fb anyFp h]
    refine ⟨rfl, hip, ?_, floor_fract_lt fb v⟩
    rw [← hip']
    exact Int.natCast_floor_eq_floor (by positivity)
  · rw [presentFinite_saturates fb anyFp h]
    exact ⟨rfl, rfl, rfl⟩

/-- Issuing a finite number issues its presentation at this build's widths (R120). -/
theorem issueValue_finite (st : State) (anyFp : Part) (v : ℝ) :
    st.issueValue anyFp (.finite v) = .next (st.issue (.operand (presentFinite 32 32 anyFp.toNat v).s
      (BitVec.ofNat 32 (presentFinite 32 32 anyFp.toNat v).ip) (BitVec.ofNat 32 (presentFinite 32 32 anyFp.toNat v).fp))) := rfl

/-- Settles O49: the presentation's parts fit the ports, so the step's operand is the presentation. -/
theorem issuedRealIsEncoded : Obligations.IssuedRealIsEncoded := by
  intro v anyFp st hidle
  obtain ⟨hip, hfp⟩ := presentFinite_bounds (iw := 32) (fb := 32) (v := v) (.inr anyFp.isLt)
  have hpending (w : Invocation) : (st.issue w).pending = [w] := by rw [State.issue_pending, hidle, List.nil_append]
  refine ⟨_, _, issueValue_finite st anyFp v, step_eq_performed (hpending _), by simp, ?_⟩
  rw [encodeValue_trunc_finite]
  simp only [State.performed, State.deliverEnc_enc, BitVec.toNat_ofNat, Nat.mod_eq_of_lt hip, Nat.mod_eq_of_lt hfp]

end Sys2Proof.Machine
end

section
/-! PROOFS. The RNE option (spec/42_encoder_rne_option.md, log 10): its word is the truncated one or the next, by the side of the midpoint
between their magnitudes that the operand lies on. -/

namespace Sys2Proof.Machine

/-- Rounding to nearest in one form: what is dropped against half a grid step (R88). -/
theorem roundNearestEven_eq (x : Nat) {k : Nat} (hk : 0 < k) :
    roundNearestEven x k = if 2 ^ k < 2 * (x % 2 ^ k) ∨ (2 ^ k = 2 * (x % 2 ^ k) ∧ x / 2 ^ k % 2 = 1) then x / 2 ^ k + 1
      else x / 2 ^ k := by
  obtain ⟨j, rfl⟩ := Nat.exists_eq_add_one.2 hk
  have hhalf : 1 <<< (j + 1 - 1) * 2 = 2 ^ (j + 1) := by rw [Nat.shiftLeft_eq, one_mul, Nat.add_sub_cancel, pow_succ]
  rw [roundNearestEven, if_neg (by omega), Int.toNat_natCast]
  dsimp only
  rw [Nat.shiftRight_eq_div_pow]
  congr 1
  simp only [eq_iff_iff]
  omega

/-- Twice the midpoint between the magnitude of a field and the next one, in units of 2^-FB. -/
def doubledMidpoint (fb h : Nat) : Nat := (fieldMagnitude h + fieldMagnitude (h + 1)) * 2 ^ (fb - 24)

/-- What rounding to nearest, ties to even, makes of the truncated field. -/
def IsNearestField (fb x n : Nat) : Prop :=
  (n = truncField fb x ∧ 2 * x ≤ doubledMidpoint fb (truncField fb x) ∧
    (2 * x = doubledMidpoint fb (truncField fb x) → truncField fb x % 2 = 0)) ∨
  (n = truncField fb x + 1 ∧ doubledMidpoint fb (truncField fb x) ≤ 2 * x ∧
    (2 * x = doubledMidpoint fb (truncField fb x) → truncField fb x % 2 = 1))

section
variable {iw fb x : Nat}

/-- The midpoint is half a grid step above the truncated magnitude. -/
theorem doubledMidpoint_truncField (fb x : Nat) :
    doubledMidpoint fb (truncField fb x) = 2 * (x / 2 ^ gridShift fb x * 2 ^ gridShift fb x) + 2 ^ gridShift fb x := by
  rw [doubledMidpoint, add_mul, fieldMagnitude_truncField, fieldMagnitude_truncField_succ]
  ring

/-- The grid steps rounded to nearest, at their place, are the nearest field (R88). -/
theorem isNearestField_roundNearestEven (hfb : 32 ≤ fb) :
    IsNearestField fb x ((gridShift fb x - (fb - 24)) * 1024 + roundNearestEven x (gridShift fb x)) := by
  have hmid := doubledMidpoint_truncField fb x
  have hsplit := Nat.div_add_mod' x (2 ^ gridShift fb x)
  have hfield : truncField fb x = (gridShift fb x - (fb - 24)) * 1024 + x / 2 ^ gridShift fb x := rfl
  rw [roundNearestEven_eq x (show 0 < gridShift fb x by unfold gridShift; omega), IsNearestField]
  split
  next hup => right; omega
  next hdown => left; omega

/-- Rounding to nearest never goes below the truncation. -/
theorem div_le_roundNearestEven (x : Nat) {k : Nat} (hk : 0 < k) : x / 2 ^ k ≤ roundNearestEven x k := by
  rw [roundNearestEven_eq x hk]
  split
  next => exact Nat.le_succ _
  next => exact le_rfl

/-- RNE's field of a magnitude that does not overflow before rounding: the exponent names the grid (R88). -/
theorem rneField_eq (hfb : 32 ≤ fb) (h0 : x ≠ 0) (hx : x < 2 ^ (iw + fb)) (hx' : x < 2 ^ (fb + 16)) :
    rneField fb x (normalize iw fb x).e = (gridShift fb x - (fb - 24)) * 1024 + roundNearestEven x (gridShift fb x) := by
  have he := normalize_e hx
  rw [rneField]
  obtain hsub | ⟨k, hk, hk', lo, hi⟩ := underflow_or_binade h0 hx'
  · have hbl := bitlen_le_iff.2 hsub
    have hg := gridShift_of_lt hsub
    have hsh : max (normalize iw fb x).e (-14) - 10 + fb = (gridShift fb x : ℤ) := by omega
    rw [if_neg (by omega), hsh]
    dsimp only
    rw [if_neg (by omega), hg, Nat.sub_self, zero_mul, zero_add]
  · have hbl := bitlen_eq_of_bounds lo hi
    have hg := gridShift_of_binade (by omega) hk lo hi
    obtain ⟨-, hlead, -⟩ := truncField_of_binade (by omega) hk lo hi
    have hle := div_le_roundNearestEven x (show 0 < gridShift fb x by omega)
    rw [← hg] at hlead
    have hsh : max (normalize iw fb x).e (-14) - 10 + fb = (gridShift fb x : ℤ) := by omega
    rw [if_neg (by omega), hsh]
    dsimp only
    rw [if_pos (by omega)]
    omega

/-- An overflowing magnitude is an infinity before rounding (R90). -/
theorem rneField_overflow (hx : x < 2 ^ (iw + fb)) (h : 2 ^ (fb + 16) ≤ x) : rneField fb x (normalize iw fb x).e = 0x7C00 := by
  have he := normalize_e_lt_iff hx (fb + 16)
  exact if_pos (by omega)

theorem isNearestField_rneField (hfb : 32 ≤ fb) (h0 : x ≠ 0) (hx : x < 2 ^ (iw + fb)) (hx' : x < 2 ^ (fb + 16)) :
    IsNearestField fb x (rneField fb x (normalize iw fb x).e) := by
  rw [rneField_eq hfb h0 hx hx']
  exact isNearestField_roundNearestEven hfb

/-- The nearest field of a magnitude below 2^16 is at most the infinity's. -/
theorem IsNearestField.le_infinity {n : Nat} (hn : IsNearestField fb x n) (hfb : 24 ≤ fb) (hx : x < 2 ^ (fb + 16)) : n ≤ 0x7C00 := by
  have hinf := infinity_le_truncField_iff (x := x) hfb
  obtain ⟨hn, -⟩ | ⟨hn, -⟩ := hn <;> omega

/-- The fields RNE packs are `rneField`, its status bits by it and by the exponent (R88, R90). -/
theorem encodeRne_of_ne_zero (iw fb : Nat) (h0 : x ≠ 0) : encodeRne iw fb x =
    ⟨(rneField fb x (normalize iw fb x).e / 1024 : Nat), BitVec.ofNat 10 (rneField fb x (normalize iw fb x).e),
      overflowFlagRne (rneField fb x (normalize iw fb x).e), underflowFlag (normalize iw fb x).e⟩ := if_neg h0

theorem packedField_encodeRne (iw fb : Nat) (h0 : x ≠ 0) :
    packedField (encodeRne iw fb x) = rneField fb x (normalize iw fb x).e := by
  rw [encodeRne_of_ne_zero iw fb h0, packedField, BitVec.toNat_ofNat, Int.toNat_natCast]
  exact Nat.div_add_mod' _ _

/-- What RNE packs: an infinity from 2^16 on, the nearest field below (R88 to R90). -/
theorem packedField_encodeRne_cases (hfb : 32 ≤ fb) (hx : x < 2 ^ (iw + fb)) :
    (2 ^ (fb + 16) ≤ x ∧ packedField (encodeRne iw fb x) = 0x7C00) ∨
      (x < 2 ^ (fb + 16) ∧ IsNearestField fb x (packedField (encodeRne iw fb x))) := by
  by_cases h0 : x = 0
  · subst h0
    refine .inr ⟨by positivity, .inl ?_⟩
    simp [encodeRne, packedField, packedZero, truncField, gridShift]
  rw [packedField_encodeRne iw fb h0]
  by_cases hover : 2 ^ (fb + 16) ≤ x
  · exact .inl ⟨hover, rneField_overflow hx hover⟩
  · exact .inr ⟨not_le.1 hover, isNearestField_rneField hfb h0 hx (not_le.1 hover)⟩

theorem packedField_encodeRne_le (hfb : 32 ≤ fb) (hx : x < 2 ^ (iw + fb)) : packedField (encodeRne iw fb x) ≤ 0x7C00 := by
  obtain ⟨-, h⟩ | ⟨hlt, h⟩ := packedField_encodeRne_cases hfb hx
  · exact h.le
  · exact h.le_infinity (by omega) hlt

/-- The exponent RNE leaves for packing fits the five bits, the carry into an infinity included (R89). -/
theorem encodeRne_E_range (hfb : 32 ≤ fb) (hx : x < 2 ^ (iw + fb)) : 0 ≤ (encodeRne iw fb x).E ∧ (encodeRne iw fb x).E ≤ 31 := by
  have hle := packedField_encodeRne_le hfb hx
  have hpos : 0 ≤ (encodeRne iw fb x).E := by
    unfold encodeRne
    split
    · exact le_rfl
    · exact Int.natCast_nonneg _
  unfold packedField at hle
  omega

/-- `ovf` says that the result is an infinity (R90). -/
theorem encodeRne_ovf_iff (iw fb x : Nat) : (encodeRne iw fb x).ovf = true ↔ packedField (encodeRne iw fb x) = 0x7C00 := by
  by_cases h0 : x = 0
  · subst h0
    simp [encodeRne, packedField, packedZero]
  · rw [packedField_encodeRne iw fb h0, encodeRne_of_ne_zero iw fb h0]
    exact beq_iff_eq

/-- `unf` is the truncating mode's (R90). -/
theorem encodeRne_unf (iw fb x : Nat) : (encodeRne iw fb x).unf = (encodeTrunc iw fb x).unf := by
  by_cases h0 : x = 0
  · subst h0
    rfl
  · rw [encodeRne_of_ne_zero iw fb h0, encodeTrunc_of_ne_zero iw fb h0, classifyRange_unf]

/-- Both modes have outputs on every operand (R107). -/
theorem encodeWord_eq_packedOut (mode : RoundMode) {iw fb ip fp : Nat} (sg : Bit) (hfb : 32 ≤ fb) (hip : ip < 2 ^ iw)
    (hfp : fp < 2 ^ fb) :
    encodeWord mode iw fb sg ip fp = .ok (packedOut sg (encodePacked mode iw fb (magnitudeBits fb ip fp))) := by
  cases mode with
  | trunc => exact encodeWord_trunc iw fb sg ip fp
  | rne =>
    obtain ⟨lo, hi⟩ := encodeRne_E_range hfb (magnitudeBits_lt hip hfp)
    exact finishEncode_ok sg lo hi

/-- The RNE word is the operand's sign and the packed field. -/
theorem encodeRne_word_toNat (sg : Bit) (hfb : 32 ≤ fb) (hx : x < 2 ^ (iw + fb)) :
    (packedOut sg (encodeRne iw fb x)).word.toNat = sg.toNat * 32768 + packedField (encodeRne iw fb x) :=
  have ⟨lo, hi⟩ := encodeRne_E_range hfb hx
  packedOut_word_toNat sg lo hi

theorem encodeRne_word_mod (sg : Bit) (hfb : 32 ≤ fb) (hx : x < 2 ^ (iw + fb)) :
    (packedOut sg (encodeRne iw fb x)).word.toNat % 32768 = packedField (encodeRne iw fb x) :=
  have ⟨lo, hi⟩ := encodeRne_E_range hfb hx
  packedOut_word_mod sg lo hi

/-- A magnitude of the grid is below its midpoint, so it is rounded to itself (R92). -/
theorem IsNearestField.eq_of_exact {n h : Nat} (hn : IsNearestField fb (fieldMagnitude h * 2 ^ (fb - 24)) n) : n = h := by
  have hlt : fieldMagnitude h * 2 ^ (fb - 24) < fieldMagnitude (h + 1) * 2 ^ (fb - 24) :=
    Nat.mul_lt_mul_of_pos_right (fieldMagnitude_strictMono (Nat.lt_succ_self h)) (by positivity)
  rw [IsNearestField, truncField_fieldMagnitude, doubledMidpoint, add_mul] at hn
  omega

/-- RNE packs a finite field's own magnitude as that field. -/
theorem packedField_encodeRne_exact (hfb : 32 ≤ fb) {h : Nat} (hh : h < 0x7C00)
    (hx : fieldMagnitude h * 2 ^ (fb - 24) < 2 ^ (iw + fb)) :
    packedField (encodeRne iw fb (fieldMagnitude h * 2 ^ (fb - 24))) = h := by
  have hinf := infinity_le_truncField_iff (fb := fb) (x := fieldMagnitude h * 2 ^ (fb - 24)) (by omega)
  rw [truncField_fieldMagnitude] at hinf
  obtain ⟨hover, -⟩ | ⟨-, hn⟩ := packedField_encodeRne_cases hfb hx
  · omega
  · exact hn.eq_of_exact

/-- Either mode encodes a finite field's own magnitude as the word with that field. -/
theorem encodePacked_word_exact (mode : RoundMode) (sg : Bit) (hiw : 17 ≤ iw) (hfb : 32 ≤ fb) {h : Nat} (hh : h < 0x7C00)
    (hx : fieldMagnitude h * 2 ^ (fb - 24) < 2 ^ (iw + fb)) :
    (packedOut sg (encodePacked mode iw fb (fieldMagnitude h * 2 ^ (fb - 24)))).word.toNat = sg.toNat * 32768 + h := by
  cases mode with
  | trunc =>
    rw [encodePacked, encodeTrunc_word_toNat sg hiw (by omega) hx, truncField_fieldMagnitude, min_eq_left hh.le]
  | rne => rw [encodePacked, encodeRne_word_toNat sg hfb hx, packedField_encodeRne_exact hfb hh hx]

end

/-- Settles O32: in both modes what is packed is in range. -/
theorem rangeErrorUnreachable : Obligations.RangeErrorUnreachable := fun mode _ _ sg _ _ _ hfb hip hfp =>
  ⟨_, encodeWord_eq_packedOut mode sg hfb hip hfp, rfl⟩

/-- The largest finite magnitude is below 2^16. -/
theorem fieldMagnitude_lt_of_finite {h : Nat} (hh : h < 0x7C00) : fieldMagnitude h < 2 ^ 40 :=
  fieldMagnitude_infinity ▸ fieldMagnitude_strictMono hh

/-- The encoding of a finite number in either mode, from its presentation. -/
theorem encodeValue_finite (mode : RoundMode) {iw fb anyFp : Nat} {v : ℝ} (hfb : 32 ≤ fb) (h : |v| < 2 ^ iw ∨ anyFp < 2 ^ fb) :
    encodeValue mode iw fb anyFp (.finite v) =
      .next (packedOut (presentFinite iw fb anyFp v).s (encodePacked mode iw fb (presentedBits iw fb anyFp v))) := by
  obtain ⟨hip, hfp⟩ := presentFinite_bounds h
  simp only [encodeValue, present, encodeWord_eq_packedOut mode _ hfb hip hfp]
  rfl

/-- The encoding of the decoder's value of a sign and a magnitude: the same sign, and the magnitude in units of 2^-32. -/
theorem encodeValue_signed_magnitude (mode : RoundMode) (anyFp : Nat) (sg : Bit) {m : Nat} (h0 : 0 < m) (hm : m < 2 ^ 40) :
    encodeValue mode 32 32 anyFp (.finite ((-1 : ℝ) ^ sg.toNat * m / 2 ^ 24)) =
      .next (packedOut sg (encodePacked mode 32 32 (m * 2 ^ (32 - 24)))) := by
  have hpos : (0 : ℝ) < (m : ℝ) / 2 ^ 24 := by positivity
  have hm' : (m : ℝ) < 2 ^ 40 := by exact_mod_cast hm
  rw [mul_div_assoc]
  have habs : |(-1 : ℝ) ^ sg.toNat * ((m : ℝ) / 2 ^ 24)| = (m : ℝ) / 2 ^ 24 := by
    rw [abs_mul, abs_pow, abs_neg, abs_one, one_pow, one_mul, abs_of_pos hpos]
  have hfits : |(-1 : ℝ) ^ sg.toNat * ((m : ℝ) / 2 ^ 24)| < 2 ^ 32 := by
    rw [habs, div_lt_iff₀ (by positivity)]
    linarith
  have hsign : (if (-1 : ℝ) ^ sg.toNat * ((m : ℝ) / 2 ^ 24) < 0 then 1 else 0) = sg := by
    obtain rfl | rfl := bit_eq_zero_or_one sg
    · exact if_neg (by simpa using hpos.le)
    · exact if_pos (by simpa using h0)
  have hunits : (m : ℝ) / 2 ^ 24 * 2 ^ 32 = (m * 2 ^ (32 - 24) : ℕ) := by push_cast; ring
  rw [encodeValue_finite mode le_rfl (.inl hfits), presentFinite_s, hsign, presentedBits_fits 32 anyFp hfits, habs, hunits,
    Nat.floor_natCast]

/-- The encoding of a signed zero in either mode (R72). -/
theorem encodeValue_zero (mode : RoundMode) (iw fb anyFp : Nat) (sg : Bit) :
    encodeValue mode iw fb anyFp (.zero sg : Value ℝ) = .next (packedOut sg packedZero) := by
  have hzero : encodePacked mode iw fb (magnitudeBits fb 0 0) = packedZero := by
    rw [magnitudeBits, zero_mul, zero_add]
    cases mode <;> rfl
  simp only [encodeValue, present, encodeWord, hzero]
  rfl

/-- Settles O43: the value's magnitude is on the grid at the word's own field, where neither mode rounds. -/
theorem decodedValuesEncodeBack : Obligations.DecodedValuesEncodeBack := by
  intro mode w free anyFp h
  have hfin := (magDefined_iff w free).1 h
  have hcat := decodeWord_cat_eq_classify w free
  by_cases hzero : w.toNat % 32768 = 0
  · rw [valueOf_zero (hcat.trans ((classify_eq_zero_iff w).2 hzero)), encodeValue_zero]
    refine ⟨_, rfl, BitVec.eq_of_toNat_eq ?_⟩
    rw [packedOut_word_toNat _ (by simp [packedZero]) (by simp [packedZero]), toNat_eq_sign_add w, hzero]
    rfl
  · have hvalued : (decodeWord w free).cat = .subnormal ∨ (decodeWord w free).cat = .normal := by
      rw [hcat, classify_eq_subnormal_iff, classify_eq_normal_iff]
      omega
    have hpos : 0 < fieldMagnitude (w.toNat % 32768) :=
      lt_of_le_of_lt (Nat.zero_le _) (fieldMagnitude_strictMono (Nat.pos_of_ne_zero hzero))
    have hlt := fieldMagnitude_lt_of_finite hfin
    rw [valueOf_eq_finite hvalued, decodeWord_mag_toNat free hfin, decodeWord_sign,
      encodeValue_signed_magnitude mode anyFp (wordSign w) hpos hlt]
    refine ⟨_, rfl, BitVec.eq_of_toNat_eq ?_⟩
    rw [encodePacked_word_exact mode (wordSign w) (by norm_num) le_rfl hfin (by omega)]
    exact (toNat_eq_sign_add w).symm

section
variable {iw fb x : Nat} (sg : Bit)

/-- The same word where the packed fields are the same. -/
theorem encodeRne_word_eq (hiw : 17 ≤ iw) (hfb : 32 ≤ fb) (hx : x < 2 ^ (iw + fb))
    (h : packedField (encodeRne iw fb x) = min (truncField fb x) 0x7C00) :
    (packedOut sg (encodeRne iw fb x)).word = (packedOut sg (encodeTrunc iw fb x)).word :=
  BitVec.eq_of_toNat_eq (by rw [encodeRne_word_toNat sg hfb hx, encodeTrunc_word_toNat sg hiw (by omega) hx, h])

/-- An overflow is an infinity in both modes (R90). -/
theorem encodeRne_word_of_overflow (hiw : 17 ≤ iw) (hfb : 32 ≤ fb) (hx : x < 2 ^ (iw + fb)) (hover : 2 ^ (fb + 16) ≤ x) :
    (packedOut sg (encodeRne iw fb x)).word = (packedOut sg (encodeTrunc iw fb x)).word := by
  have hinf := (infinity_le_truncField_iff (fb := fb) (by omega)).2 hover
  refine encodeRne_word_eq sg hiw hfb hx ?_
  rw [min_eq_right hinf]
  exact ((packedField_encodeRne_cases hfb hx).resolve_right fun ⟨hlt, _⟩ => not_le.2 hlt hover).2

/-- The nearest field is the truncated one or the next (R92). -/
theorem encodeRne_word_eq_or_succ (hiw : 17 ≤ iw) (hfb : 32 ≤ fb) (hx : x < 2 ^ (iw + fb)) :
    (packedOut sg (encodeRne iw fb x)).word = (packedOut sg (encodeTrunc iw fb x)).word ∨
      (packedOut sg (encodeRne iw fb x)).word.toNat = (packedOut sg (encodeTrunc iw fb x)).word.toNat + 1 := by
  have hle := packedField_encodeRne_le hfb hx
  obtain ⟨hover, -⟩ | ⟨-, ⟨hn, -⟩ | ⟨hn, -⟩⟩ := packedField_encodeRne_cases hfb hx
  · exact .inl (encodeRne_word_of_overflow sg hiw hfb hx hover)
  · exact .inl (encodeRne_word_eq sg hiw hfb hx (by omega))
  · right
    rw [encodeRne_word_toNat sg hfb hx, encodeTrunc_word_toNat sg hiw (by omega) hx, hn, min_eq_left (by omega), Nat.add_assoc]

/-- A magnitude that the truncated word stands for exactly is not rounded (R92). -/
theorem encodeRne_word_of_exact (free : Magnitude) (hiw : 17 ≤ iw) (hfb : 32 ≤ fb) (hx : x < 2 ^ (iw + fb)) (hfin : x < 2 ^ (fb + 16))
    (hexact : (decodeWord (packedOut sg (encodeTrunc iw fb x)).word free).mag.toNat * 2 ^ (fb - 24) = x) :
    (packedOut sg (encodeRne iw fb x)).word = (packedOut sg (encodeTrunc iw fb x)).word := by
  have hlt := truncField_lt_infinity (by omega) hfin
  have hmod := encodeTrunc_word_mod sg hiw (by omega) hx
  rw [min_eq_left hlt.le] at hmod
  rw [decodeWord_mag_toNat free (by omega), hmod] at hexact
  obtain ⟨-, hn⟩ := (packedField_encodeRne_cases hfb hx).resolve_left fun ⟨hover, _⟩ => not_le.2 hfin hover
  refine encodeRne_word_eq sg hiw hfb hx ?_
  rw [min_eq_left hlt.le]
  exact IsNearestField.eq_of_exact (by rwa [hexact])

end

/-- Settles O50: the nearest field is the truncated one or the next, and the other outputs follow it. -/
theorem rneIsTruncOrNextWord : Obligations.RneIsTruncOrNextWord := by
  intro iw fb sg ip fp hiw hfb hip hfp
  have hx := magnitudeBits_lt hip hfp
  refine ⟨_, _, encodeWord_trunc iw fb sg ip fp, encodeWord_eq_packedOut .rne sg hfb hip hfp,
    encodeRne_word_eq_or_succ sg hiw hfb hx, wordSign_packWord _ _ _, encodeRne_unf iw fb _, ?_, fun hover => ?_,
    fun free hfin => encodeRne_word_of_exact sg free hiw hfb hx ?_⟩
  · rw [packedOut_ovf, encodePacked, encodeRne_ovf_iff, classify_eq_infinity_iff, encodeRne_word_mod sg hfb hx]
  · refine encodeRne_word_of_overflow sg hiw hfb hx ?_
    rw [magnitudeBits, pow_add, mul_comm]
    exact (Nat.mul_le_mul_right _ hover).trans (Nat.le_add_right _ _)
  · rw [Nat.add_comm]
    exact magnitudeBits_lt hfin hfp

/-- Magnitudes of fields in units of 2^-32 keep the order of the fields. -/
theorem fieldMagnitude_units_le {h h' : Nat} (hle : h ≤ h') (u : Nat) : fieldMagnitude h * u ≤ fieldMagnitude h' * u :=
  Nat.mul_le_mul_right u (fieldMagnitude_strictMono.monotone hle)

theorem fieldMagnitude_units_lt {h h' : Nat} (hlt : h < h') {u : Nat} (hu : 0 < u) : fieldMagnitude h * u < fieldMagnitude h' * u :=
  Nat.mul_lt_mul_of_pos_right (fieldMagnitude_strictMono hlt) hu

/-- The operand lies between the truncated field's magnitude and the next one's. -/
theorem truncField_bounds (fb x : Nat) : fieldMagnitude (truncField fb x) * 2 ^ (fb - 24) ≤ x ∧
    x < fieldMagnitude (truncField fb x + 1) * 2 ^ (fb - 24) := by
  have hle := le_truncField_iff (fb := fb) (x := x) (h := truncField fb x)
  have hlt := le_truncField_iff (fb := fb) (x := x) (h := truncField fb x + 1)
  rw [Nat.le_div_iff_mul_le (by positivity)] at hle hlt
  omega

/-- RNE reaches the field above `k` exactly past the midpoint between the two, the tie included where `k` is odd (R88, R89). -/
theorem lt_packedField_encodeRne_iff {iw fb x k : Nat} (hfb : 32 ≤ fb) (hx : x < 2 ^ (iw + fb)) (hk : k < 0x7C00) :
    k < packedField (encodeRne iw fb x) ↔ doubledMidpoint fb k < 2 * x ∨ (doubledMidpoint fb k = 2 * x ∧ k % 2 = 1) := by
  have hu : 0 < 2 ^ (fb - 24) := by positivity
  obtain ⟨lo, hi⟩ := truncField_bounds fb x
  have hnext := fieldMagnitude_units_lt (Nat.lt_add_one k) hu
  have hmid : doubledMidpoint fb k = fieldMagnitude k * 2 ^ (fb - 24) + fieldMagnitude (k + 1) * 2 ^ (fb - 24) := add_mul _ _ _
  have hinf := infinity_le_truncField_iff (fb := fb) (x := x) (by omega)
  obtain hkn | rfl | hkn := lt_trichotomy k (truncField fb x)
  · have hbelow := fieldMagnitude_units_le (show k + 1 ≤ truncField fb x from hkn) (2 ^ (fb - 24))
    refine iff_of_true ?_ (.inl (by omega))
    obtain ⟨-, hn⟩ | ⟨-, ⟨hn, -⟩ | ⟨hn, -⟩⟩ := packedField_encodeRne_cases hfb hx <;> omega
  · obtain ⟨hover, -⟩ | ⟨-, ⟨hn, hside⟩ | ⟨hn, hside⟩⟩ := packedField_encodeRne_cases hfb hx <;> omega
  · have habove := fieldMagnitude_units_le (show truncField fb x + 1 ≤ k from hkn) (2 ^ (fb - 24))
    refine iff_of_false ?_ (by omega)
    obtain ⟨hover, -⟩ | ⟨-, ⟨hn, -⟩ | ⟨hn, -⟩⟩ := packedField_encodeRne_cases hfb hx <;> omega

/-- A midpoint of the grid of `2^j` units. -/
theorem doubledMidpoint_grid (fb : Nat) {j q : Nat} (hlo : j = 0 ∨ 1024 ≤ q) (hhi : q < 2048) :
    doubledMidpoint fb (j * 1024 + q) = (2 * q + 1) * 2 ^ j * 2 ^ (fb - 24) := by
  rw [doubledMidpoint, Nat.add_assoc, fieldMagnitude_grid hlo hhi.le,
    fieldMagnitude_grid (q := q + 1) (hlo.imp_right Nat.le_succ_of_le) hhi]
  ring

/-- The thresholds of R89 and R90 are the midpoints after the fields 0x7BFF, 0 and 0x3FF. -/
theorem packedField_encodeRne_thresholds {x : Nat} (hx : x < 2 ^ (32 + 32)) :
    (packedField (encodeRne 32 32 x) = 0x7C00 ↔ 65520 * 2 ^ 32 ≤ x) ∧ (packedField (encodeRne 32 32 x) = 0 ↔ x ≤ 2 ^ 7) ∧
      (0x400 ≤ packedField (encodeRne 32 32 x) ↔ 2 ^ 18 - 2 ^ 7 ≤ x) := by
  have hle := packedField_encodeRne_le le_rfl hx
  have hzero := lt_packedField_encodeRne_iff (k := 0) le_rfl hx (by norm_num)
  have hnormal := lt_packedField_encodeRne_iff (k := 0x3FF) le_rfl hx (by norm_num)
  have hinf := lt_packedField_encodeRne_iff (k := 0x7BFF) le_rfl hx (by norm_num)
  have hmidZero : doubledMidpoint 32 0 = 1 * 2 ^ 0 * 2 ^ 8 := doubledMidpoint_grid 32 (j := 0) (q := 0) (by norm_num) (by norm_num)
  have hmidNormal : doubledMidpoint 32 0x3FF = 2047 * 2 ^ 0 * 2 ^ 8 :=
    doubledMidpoint_grid 32 (j := 0) (q := 1023) (by norm_num) (by norm_num)
  have hmidInf : doubledMidpoint 32 0x7BFF = 4095 * 2 ^ 29 * 2 ^ 8 :=
    doubledMidpoint_grid 32 (j := 29) (q := 2047) (by norm_num) (by norm_num)
  omega

/-- Settles O52: a result's class is its field's range, and no field is past the infinity's. -/
theorem rneThresholds : Obligations.RneThresholds := by
  intro sg ip fp
  obtain ⟨hinf, hzero, hnormal⟩ := packedField_encodeRne_thresholds (magnitudeBits_part_lt ip fp)
  have hle := packedField_encodeRne_le le_rfl (magnitudeBits_part_lt ip fp)
  have hword := encodeRne_word_mod sg le_rfl (magnitudeBits_part_lt ip fp)
  refine ⟨_, encodeWord_eq_packedOut .rne sg le_rfl ip.isLt fp.isLt, ?_⟩
  rw [ne_eq, classify_eq_infinity_iff, classify_eq_zero_iff, classify_eq_nan_iff, encodePacked, packedOut_ovf, encodeRne_ovf_iff, hword,
    Nat.not_lt]
  exact ⟨hinf, hinf, hzero, hnormal, hle⟩

/-- Of the two neighbours of the operand the nearer one is the nearest field of all, and at a tie it is the even one (R88, R91). -/
theorem IsNearestField.abs_sub_le {fb x n : Nat} (hn : IsNearestField fb x n) (h : Nat) :
    |((fieldMagnitude n * 2 ^ (fb - 24) : ℕ) : ℤ) - x| ≤ |((fieldMagnitude h * 2 ^ (fb - 24) : ℕ) : ℤ) - x| ∧
      (|((fieldMagnitude n * 2 ^ (fb - 24) : ℕ) : ℤ) - x| = |((fieldMagnitude h * 2 ^ (fb - 24) : ℕ) : ℤ) - x| →
        h ≠ n → n % 2 = 0) := by
  have hu : 0 < 2 ^ (fb - 24) := by positivity
  obtain ⟨lo, hi⟩ := truncField_bounds fb x
  have hmid : doubledMidpoint fb (truncField fb x) =
    fieldMagnitude (truncField fb x) * 2 ^ (fb - 24) + fieldMagnitude (truncField fb x + 1) * 2 ^ (fb - 24) := add_mul _ _ _
  have hother : (h = truncField fb x ∨ h = truncField fb x + 1) ∨
      fieldMagnitude h * 2 ^ (fb - 24) < fieldMagnitude (truncField fb x) * 2 ^ (fb - 24) ∨
      fieldMagnitude (truncField fb x + 1) * 2 ^ (fb - 24) < fieldMagnitude h * 2 ^ (fb - 24) := by
    obtain hlt | heq | hlt := lt_trichotomy h (truncField fb x)
    · exact .inr (.inl (fieldMagnitude_units_lt hlt hu))
    · exact .inl (.inl heq)
    · obtain heq | hlt := (Nat.succ_le_of_lt hlt).eq_or_lt
      · exact .inl (.inr heq.symm)
      · exact .inr (.inr (fieldMagnitude_units_lt hlt hu))
  rw [Int.abs_eq_natAbs, Int.abs_eq_natAbs]
  obtain ⟨rfl, hside⟩ | ⟨rfl, hside⟩ := hn <;> obtain (rfl | rfl) | hlt | hlt := hother <;> omega

/-- Settles O51: a finite result is the nearest field, whose magnitude is the decoder's. -/
theorem rneIsNearestTiesToEven : Obligations.RneIsNearestTiesToEven := by
  intro sg ip fp o ho hovf h free free' hh X near other
  have hX : X = (magnitudeBits 32 ip.toNat fp.toNat : ℕ) := by simp [X, magnitudeBits]
  have hx := magnitudeBits_part_lt ip fp
  rw [encodeWord_eq_packedOut .rne sg le_rfl ip.isLt fp.isLt] at ho
  generalize magnitudeBits 32 ip.toNat fp.toNat = x at hX hx ho
  obtain rfl : packedOut sg (encodeRne 32 32 x) = o := Except.ok.inj ho
  rw [packedOut_ovf, Bool.eq_false_iff, ne_eq, encodeRne_ovf_iff] at hovf
  have hle := packedField_encodeRne_le le_rfl hx
  have hfield := encodeRne_word_mod sg le_rfl hx
  have hnear := decodeWord_mag_toNat (w := (packedOut sg (encodeRne 32 32 x)).word) free (by omega)
  have hmod : (BitVec.ofNat 16 h).toNat % 32768 = h := by rw [BitVec.toNat_ofNat]; omega
  have hother := decodeWord_mag_toNat (w := BitVec.ofNat 16 h) free' (by omega)
  obtain ⟨-, hn⟩ := (packedField_encodeRne_cases le_rfl hx).resolve_left fun ⟨_, hinf⟩ => hovf hinf
  obtain ⟨hbest, htie⟩ := hn.abs_sub_le h
  rw [hfield] at hnear
  rw [hmod] at hother
  have hnear' : near = ((fieldMagnitude (packedField (encodeRne 32 32 x)) * 2 ^ (32 - 24) : ℕ) : ℤ) - x := by
    rw [← hnear, ← hX]; push_cast; rfl
  have hother' : other = ((fieldMagnitude h * 2 ^ (32 - 24) : ℕ) : ℤ) - x := by
    rw [← hother, ← hX]; push_cast; rfl
  rw [hnear', hother', hfield]
  refine ⟨hbest, fun heq hne => ?_⟩
  have := htie heq hne
  omega

end Sys2Proof.Machine
end

section
/-! PROOFS. The registered variant (spec/70_reset_and_hazards.md R126): the ranks as one list that an edge shifts or clears, and what
has reached the last one. -/

namespace Sys2Proof.Machine.Registered

variable {ι α : Type} {f : ι → α} {n m : Nat}

theorem ranks_length (r : Registered α) : r.ranks.length = r.stages.length + 1 := by simp [ranks]

/-- An edge keeps the ranks. -/
theorem edge_ranks_length (r : Registered α) (a : EdgeInput ι) : (r.edge f a).ranks.length = r.ranks.length := by
  obtain ⟨rst, x⟩ := a
  cases rst <;> simp

theorem edges_ranks_length (r : Registered α) (as : List (EdgeInput ι)) : (r.edges f as).ranks.length = r.ranks.length := by
  induction as generalizing r with
  | nil => rfl
  | cons a as ih => rw [edges_cons, ih, edge_ranks_length]

/-- After an edge `out_valid` says whether the last rank holds a result. -/
theorem sample_edge (r : Registered α) (a : EdgeInput ι) : (r.edge f a).sample = ⟨(r.edge f a).read.isSome, (r.edge f a).read⟩ := by
  obtain ⟨rst, x⟩ := a
  cases rst <;> simp [sample]

/-- What is sampled after edges is the last rank's content. -/
theorem sample_edges (r : Registered α) {as : List (EdgeInput ι)} (hne : as ≠ []) {v : Option α} (hlen : r.ranks.length = n + 1)
    (hlast : (r.edges f as).ranks[n]? = some v) : (r.edges f as).sample = ⟨v.isSome, v⟩ := by
  have hread : (r.edges f as).read = v := by
    have hlast' := ranks_getLast? (r.edges f as)
    rw [List.getLast?_eq_getElem?, edges_ranks_length, hlen, Nat.add_sub_cancel, hlast] at hlast'
    exact (Option.some.inj hlast').symm
  obtain ⟨bs, b, rfl⟩ := (List.eq_nil_or_concat as).resolve_left hne
  rw [List.concat_eq_append, edges_append, edges_cons, edges_nil] at hread ⊢
  rw [sample_edge, hread]

/-- An edge without reset moves every rank's content to the next. -/
theorem edge_ranks_succ (r : Registered α) (x : Option ι) {k : Nat} (hk : k + 1 < r.ranks.length) :
    (r.edge f ⟨false, x⟩).ranks[k + 1]? = r.ranks[k]? := by
  rw [edge_ranks, List.getElem?_dropLast, if_pos (by simpa using hk), List.getElem?_cons_succ]

/-- It puts what is sampled into the first rank. -/
theorem edge_ranks_zero (r : Registered α) (x : Option ι) : (r.edge f ⟨false, x⟩).ranks[0]? = some (x.map f) := by
  have hpos := ranks_length r
  rw [edge_ranks, List.getElem?_dropLast, if_pos (by rw [List.length_cons]; omega), List.getElem?_cons_zero]

/-- An edge with reset empties every rank (R126). -/
theorem edge_reset_ranks_get (r : Registered α) (x : Option ι) {k : Nat} (hk : k < r.ranks.length) :
    (r.edge f ⟨true, x⟩).ranks[k]? = some none := by
  rw [edge_reset_ranks, List.getElem?_map, List.getElem?_eq_getElem hk]
  rfl

/-- Edges without reset move a rank's content on by their number. -/
theorem edges_ranks_add (r : Registered α) (as : List (EdgeInput ι)) (hrst : ∀ a ∈ as, a.rst = false) {k : Nat}
    (hk : k + as.length < r.ranks.length) : (r.edges f as).ranks[k + as.length]? = r.ranks[k]? := by
  induction as generalizing r k with
  | nil => rfl
  | cons a as ih =>
    obtain ⟨ha, has⟩ := List.forall_mem_cons.1 hrst
    obtain ⟨rst, x⟩ := a
    obtain rfl : rst = false := ha
    rw [List.length_cons] at hk ⊢
    rw [edges_cons, show k + (as.length + 1) = k + 1 + as.length by omega,
      ih _ has (by rw [edge_ranks_length]; omega), edge_ranks_succ r x (by omega)]

/-- The ranks from `m` on hold no result. -/
def EmptyFrom (r : Registered α) (m : Nat) : Prop := ∀ k, m ≤ k → k < r.ranks.length → r.ranks[k]? = some none

theorem EmptyFrom.edge {r : Registered α} (h : r.EmptyFrom m) (a : EdgeInput ι) : (r.edge f a).EmptyFrom (m + 1) := by
  intro k hk hlen
  rw [edge_ranks_length] at hlen
  obtain ⟨rst, x⟩ := a
  cases rst with
  | true => exact edge_reset_ranks_get r x hlen
  | false =>
    obtain ⟨k, rfl⟩ := Nat.exists_eq_add_one.2 (Nat.zero_lt_of_lt hk)
    rw [edge_ranks_succ r x hlen]
    exact h k (by omega) (by omega)

/-- Each edge fills at most one rank more. -/
theorem EmptyFrom.edges {r : Registered α} (h : r.EmptyFrom m) (as : List (EdgeInput ι)) : (r.edges f as).EmptyFrom (m + as.length) := by
  induction as generalizing r m with
  | nil => exact h
  | cons a as ih =>
    rw [List.length_cons, Nat.add_comm as.length, ← Nat.add_assoc]
    exact ih (h.edge a)

theorem emptyFrom_reset (r : Registered α) (x : Option ι) : (r.edge f ⟨true, x⟩).EmptyFrom 0 := fun _ _ hlen =>
  edge_reset_ranks_get r x (by rwa [edge_ranks_length] at hlen)

theorem emptyFrom_initial (n : Nat) : (initial n : Registered α).EmptyFrom 0 := by
  intro k _ hlen
  have hranks : (initial n : Registered α).ranks = List.replicate (n - 1 + 1) none := by
    rw [List.replicate_succ']
    rfl
  rw [hranks, List.length_replicate] at hlen
  rw [hranks, List.getElem?_replicate, if_pos hlen]

/-- The edges up to the `m`-th after edge `i`. -/
theorem take_eq_before_at_after {β : Type} {ins : List β} {i : Nat} {a : β} (h : ins[i]? = some a) (m : Nat) :
    ins.take (i + (m + 1)) = ins.take i ++ a :: (ins.drop (i + 1)).take m := by
  obtain ⟨hi, rfl⟩ := List.getElem?_eq_some_iff.1 h
  rw [List.take_add, List.drop_eq_getElem_cons hi, List.take_succ_cons]

/-- What is sampled `m + 1` edges after edge `i`, from the last rank after the edges between. -/
theorem samples_of_last_rank (r : Registered α) {ins : List (EdgeInput ι)} {i : Nat} {a : EdgeInput ι} (hat : ins[i]? = some a)
    (hlen : r.ranks.length = n + 1) (hj : i + (m + 1) < ins.length) {v : Option α}
    (hlast : (((r.edges f (ins.take i)).edge f a).edges f ((ins.drop (i + 1)).take m)).ranks[n]? = some v) :
    (r.samples f ins)[i + (m + 1)]? = some ⟨v.isSome, v⟩ := by
  rw [samples_getElem? f r ins hj, take_eq_before_at_after hat m]
  refine congrArg some (sample_edges r (by simp) hlen ?_)
  rw [edges_append, edges_cons]
  exact hlast

/-- An operand that no reset edge overtakes is delivered after the latency, and so is the lack of one. -/
theorem samples_delivered (r : Registered α) {ins : List (EdgeInput ι)} {i : Nat} {x : Option ι} (hlen : r.ranks.length = n + 1)
    (hat : ins[i]? = some ⟨false, x⟩) (hj : i + (n + 1) < ins.length)
    (hrst : ∀ (j : Nat) (a : EdgeInput ι), i < j → j < i + (n + 1) → ins[j]? = some a → a.rst = false) :
    (r.samples f ins)[i + (n + 1)]? = some ⟨x.isSome, x.map f⟩ := by
  have hbetween : ∀ a ∈ (ins.drop (i + 1)).take n, a.rst = false := by
    intro a ha
    obtain ⟨k, hk, hget⟩ := List.mem_iff_getElem.1 ha
    rw [List.length_take] at hk
    rw [List.getElem_take, List.getElem_drop] at hget
    exact hrst (i + 1 + k) a (by omega) (by omega) (List.getElem?_eq_some_iff.2 ⟨_, hget⟩)
  have hcount : ((ins.drop (i + 1)).take n).length = n := by rw [List.length_take, List.length_drop]; omega
  have hlast := edges_ranks_add (f := f) ((r.edges f (ins.take i)).edge f ⟨false, x⟩) _ hbetween (k := 0)
    (by rw [hcount, edge_ranks_length, edges_ranks_length, hlen]; omega)
  rw [hcount, zero_add, edge_ranks_zero] at hlast
  rw [samples_of_last_rank r hat hlen hj hlast, Option.isSome_map]

/-- A reset edge silences the edges until the latency is over. -/
theorem samples_silenced (r : Registered α) {ins : List (EdgeInput ι)} {i j : Nat} {x : Option ι} (hlen : r.ranks.length = n + 1)
    (hat : ins[i]? = some ⟨true, x⟩) (hij : i < j) (hjn : j ≤ i + (n + 1)) (hj : j < ins.length) :
    (r.samples f ins)[j]? = some ⟨false, none⟩ := by
  obtain ⟨m, rfl⟩ := Nat.exists_eq_add_of_lt hij
  refine samples_of_last_rank r hat hlen hj ((emptyFrom_reset _ x).edges _ n ?_ ?_)
  · rw [List.length_take]; omega
  · rw [edges_ranks_length, edge_ranks_length, edges_ranks_length, hlen]; omega

/-- From the initial state every result in the ranks is that of the operand sampled as many edges ago. -/
theorem rank_of_initial {as : List (EdgeInput ι)} {k : Nat} {y : α}
    (h : ((initial n).edges f as).ranks[k]? = some (some y)) :
    ∃ x, k < as.length ∧ as[as.length - 1 - k]? = some ⟨false, some x⟩ ∧ y = f x := by
  induction as using List.reverseRecOn generalizing k with
  | nil =>
    have hk := (List.getElem?_eq_some_iff.1 h).1
    rw [edges_nil] at h hk
    rw [emptyFrom_initial n k (Nat.zero_le k) hk] at h
    cases h
  | append_singleton as a ih =>
    have hk := (List.getElem?_eq_some_iff.1 h).1
    rw [edges_append, edges_cons, edges_nil] at h hk
    rw [edge_ranks_length] at hk
    obtain ⟨rst, x⟩ := a
    cases rst with
    | true =>
      rw [edge_reset_ranks_get _ x hk] at h
      cases h
    | false =>
      cases k with
      | zero =>
        rw [edge_ranks_zero] at h
        obtain ⟨x, rfl, rfl⟩ := Option.map_eq_some_iff.1 (Option.some.inj h)
        exact ⟨x, by simp, by simp, rfl⟩
      | succ k =>
        rw [edge_ranks_succ _ x hk] at h
        obtain ⟨x, hlt, hget, hy⟩ := ih h
        refine ⟨x, by simpa using hlt, ?_, hy⟩
        rw [List.length_append, List.length_singleton, show as.length + 1 - 1 - (k + 1) = as.length - 1 - k by omega,
          List.getElem?_append_left (by omega)]
        exact hget

/-- From the initial state a sample with `out_valid` is the delivery of the operand sampled the latency before. -/
theorem sample_of_initial {ins : List (EdgeInput ι)} {j : Nat} {o : EdgeOutput α}
    (h : ((initial (n + 1)).samples f ins)[j]? = some o) (hvalid : o.outValid = true) :
    ∃ x, n + 1 ≤ j ∧ ins[j - (n + 1)]? = some ⟨false, some x⟩ ∧ o.outputs = some (f x) := by
  have hj : j < ins.length := samples_length f (initial (n + 1)) ins ▸ (List.getElem?_eq_some_iff.1 h).1
  rw [samples_getElem? f _ ins hj, Option.some.injEq] at h
  have hcount : (ins.take j).length = j := by rw [List.length_take]; omega
  have hne : ins.take j ≠ [] := by
    intro hnil
    rw [hnil] at h
    rw [← h] at hvalid
    cases hvalid
  have hlen : (initial (n + 1) : Registered α).ranks.length = n + 1 := by rw [ranks_length]; simp [initial]
  have hn : n < ((initial (n + 1)).edges f (ins.take j)).ranks.length := by rw [edges_ranks_length, hlen]; omega
  have hlast := List.getElem?_eq_getElem hn
  rw [sample_edges _ hne hlen hlast] at h
  obtain ⟨y, hy⟩ := Option.isSome_iff_exists.1 ((congrArg EdgeOutput.outValid h).trans hvalid)
  obtain ⟨x, hnj, hget, rfl⟩ := rank_of_initial (hlast.trans (congrArg some hy))
  rw [hcount] at hnj hget
  rw [List.getElem?_take, if_pos (by omega), show j - 1 - n = j - (n + 1) by omega] at hget
  exact ⟨x, hnj, hget, by rw [← h, hy]⟩

/-- Data can be read only with `out_valid` (R118). -/
theorem sample_outputs_none (r : Registered α) (h : r.sample.outValid ≠ true) : r.sample.outputs = none := if_neg h

end Sys2Proof.Machine.Registered

namespace Sys2Proof.Machine

open Registered

/-- Settles O53: the last rank holds what entered the first one the latency before, unless a reset emptied the ranks. -/
theorem registeredUnitDeliversAfterLatency : Obligations.RegisteredUnitDeliversAfterLatency := by
  intro ι α f n hn
  obtain ⟨n, rfl⟩ := Nat.exists_eq_add_one.2 hn
  refine ⟨⟨by simp [initial], fun r a h => ?_⟩, fun r ins i x h hat hj hrst => ?_, fun r ins i j x h hat hij hjn hj => ?_,
    fun r x => rfl, fun ins j o h => ?_⟩
  · rw [← ranks_length, edge_ranks_length, ranks_length, h]
  · exact samples_delivered r ((ranks_length r).trans h) hat hj hrst
  · exact samples_silenced r ((ranks_length r).trans h) hat hij hjn hj
  · split
    next hvalid => exact sample_of_initial h hvalid
    next hvalid =>
      have hj : j < ins.length := samples_length f (initial (n + 1)) ins ▸ (List.getElem?_eq_some_iff.1 h).1
      rw [samples_getElem? f _ ins hj, Option.some.injEq] at h
      subst h
      exact sample_outputs_none _ hvalid

end Sys2Proof.Machine
end
